-- ==== Sys2Proof/Word.lean ====
section
/-! DEFINITION. The bit vectors of the block: bytes, 32-bit values and operands, 36-bit command words. -/

namespace Sys2Proof

/-- A byte of `HDR` or `PKD` (20_memory.md R30). -/
abbrev Byte := BitVec 8

/-- A value, the unit being compressed: an unsigned 32-bit integer (00_scope.md R4). -/
abbrev Value := BitVec 32

/-- The operand field `arg` of a command word, 32 bits, unsigned (30_encoding.md R50, R51). -/
abbrev Arg := BitVec 32

/-- The opcode field `op` of a command word (30_encoding.md R50). -/
abbrev Opcode := BitVec 4

/-- A command word `cmd[35:0]` (30_encoding.md R50). -/
abbrev CmdWord := BitVec 36

end Sys2Proof
end

