-- ==== Sys2Proof/Syntax.lean ====
section
/-! DEFINITION. The twelve commands of the block, in the order of `spec/opcode_table.json`, and the parsed form of a
listing (30_encoding.md R52, R65, R66). -/

namespace Sys2Proof

/-- A command of the block (30_encoding.md R52). A command without an operand carries none: the block ignores `arg` for
it (R51). -/
inductive Instr where
  /-- `NEW`: make the codec state empty (41_encoder.md R75). -/
  | new
  /-- `ADD x`: add one value (41_encoder.md R77). -/
  | add (x : Value)
  /-- `DECODE`: return every value added, in order (42_decoder.md R90). -/
  | decode
  /-- `COUNT`: the number of values added (43_queries.md R105). -/
  | count
  /-- `FOOTPRINT`: the encoded byte footprint (43_queries.md R106). -/
  | footprint
  /-- `WIDTH x`: ask the width calculator (40_width.md R72). -/
  | width (x : Value)
  /-- `RDHDR a`: read one header byte (43_queries.md R111). -/
  | rdhdr (a : Arg)
  /-- `RDPKD a`: read one packed byte (43_queries.md R112). -/
  | rdpkd (a : Arg)
  /-- `RDSTG i`: read one staged value (43_queries.md R113). -/
  | rdstg (i : Arg)
  /-- `HLEN`: the number of header bytes (43_queries.md R108). -/
  | hlen
  /-- `PLEN`: the number of packed bytes (43_queries.md R109). -/
  | plen
  /-- `SLEN`: the number of staged values (43_queries.md R110). -/
  | slen
  deriving DecidableEq, Repr

/-- The mnemonics of the opcode map (30_encoding.md R52). -/
inductive Mnemonic where
  | new | add | decode | count | footprint | width | rdhdr | rdpkd | rdstg | hlen | plen | slen
  deriving DecidableEq, Repr

/-- The mnemonic of a command. -/
def Instr.mnemonic : Instr → Mnemonic
  | .new => .new
  | .add _ => .add
  | .decode => .decode
  | .count => .count
  | .footprint => .footprint
  | .width _ => .width
  | .rdhdr _ => .rdhdr
  | .rdpkd _ => .rdpkd
  | .rdstg _ => .rdstg
  | .hlen => .hlen
  | .plen => .plen
  | .slen => .slen

/-- Whether a command takes an operand (30_encoding.md R51). -/
def Mnemonic.takesOperand : Mnemonic → Bool
  | .add | .width | .rdhdr | .rdpkd | .rdstg => true
  | .new | .decode | .count | .footprint | .hlen | .plen | .slen => false

/-- One command of a listing, before its operand is checked (30_encoding.md R65). -/
structure Line where
  mnemonic : Mnemonic
  operand : Option Nat
  deriving DecidableEq, Repr

end Sys2Proof
end

