-- ==== Sys2Proof/Decode.lean ====
section
/-! DEFINITION. The command word: its fields, the opcode map, the decoder and the encoder (30_encoding.md R50 to R53). -/

namespace Sys2Proof

/-- Why a word spells no command. -/
inductive Reject where
  /-- The opcode is one of the reserved 0x0, 0xD, 0xE, 0xF (30_encoding.md R53). Safe: the block raises `IllegalCommand`. -/
  | reservedOpcode (op : Opcode)
  deriving DecidableEq, Repr

/-- `op = cmd[35:32]` (30_encoding.md R50). -/
def opOf (w : CmdWord) : Opcode := w.extractLsb' 32 4

/-- `arg = cmd[31:0]` (30_encoding.md R50). -/
def argOf (w : CmdWord) : Arg := w.extractLsb' 0 32

/-- The word with the given fields (30_encoding.md R50). -/
def cmdWord (op : Opcode) (arg : Arg) : CmdWord := op ++ arg

/-- The opcode numbers (30_encoding.md R52). -/
def Mnemonic.opcode : Mnemonic → Opcode
  | .new => 0x1
  | .add => 0x2
  | .decode => 0x3
  | .count => 0x4
  | .footprint => 0x5
  | .width => 0x6
  | .rdhdr => 0x7
  | .rdpkd => 0x8
  | .rdstg => 0x9
  | .hlen => 0xA
  | .plen => 0xB
  | .slen => 0xC

/-- The column `match` of the opcode map (30_encoding.md R52). -/
def Mnemonic.matchWord : Mnemonic → CmdWord
  | .new => 0x100000000
  | .add => 0x200000000
  | .decode => 0x300000000
  | .count => 0x400000000
  | .footprint => 0x500000000
  | .width => 0x600000000
  | .rdhdr => 0x700000000
  | .rdpkd => 0x800000000
  | .rdstg => 0x900000000
  | .hlen => 0xA00000000
  | .plen => 0xB00000000
  | .slen => 0xC00000000

/-- The column `mask` of the opcode map, the same in every row (30_encoding.md R52). -/
def opcodeMask : CmdWord := 0xF00000000

/-- The mnemonic an opcode spells, if it is not reserved (30_encoding.md R52, R53). -/
def mnemonicOf (op : Opcode) : Option Mnemonic :=
  match op.toNat with
  | 0x1 => some .new
  | 0x2 => some .add
  | 0x3 => some .decode
  | 0x4 => some .count
  | 0x5 => some .footprint
  | 0x6 => some .width
  | 0x7 => some .rdhdr
  | 0x8 => some .rdpkd
  | 0x9 => some .rdstg
  | 0xA => some .hlen
  | 0xB => some .plen
  | 0xC => some .slen
  | _ => none

/-- The command a mnemonic and an operand make: the operand whole, or ignored (30_encoding.md R51). -/
def Mnemonic.withArg (m : Mnemonic) (arg : Arg) : Instr :=
  match m with
  | .new => .new
  | .add => .add arg
  | .decode => .decode
  | .count => .count
  | .footprint => .footprint
  | .width => .width arg
  | .rdhdr => .rdhdr arg
  | .rdpkd => .rdpkd arg
  | .rdstg => .rdstg arg
  | .hlen => .hlen
  | .plen => .plen
  | .slen => .slen

/-- The command a word spells, or why it spells none. Total on all 2^36 words (30_encoding.md R53). -/
def decode (w : CmdWord) : Except Reject Instr :=
  match mnemonicOf (opOf w) with
  | some m => .ok (m.withArg (argOf w))
  | none => .error (.reservedOpcode (opOf w))

/-- The operand a command sends: 0 where it takes none (30_encoding.md R51, R65). -/
def Instr.arg : Instr → Arg
  | .new => 0
  | .add x => x
  | .decode => 0
  | .count => 0
  | .footprint => 0
  | .width x => x
  | .rdhdr a => a
  | .rdpkd a => a
  | .rdstg i => i
  | .hlen => 0
  | .plen => 0
  | .slen => 0

/-- The word of a command (30_encoding.md R50, R52). -/
def encode (i : Instr) : CmdWord := cmdWord i.mnemonic.opcode i.arg

/-- The word whose bits are those of `w`, the bits from `nbits` up being zero. -/
def tableWord (nbits w : Nat) : CmdWord := BitVec.ofNat 36 (w % 2 ^ nbits)

/-- The decoder's answer on an instruction of the opcode table, numbered as the table numbers its bits: a command is ONE
36-bit word, so the number is the word (log entry 13). -/
def decodeTableWord (nbits w : Nat) : Option Instr :=
  match decode (tableWord nbits w) with
  | .ok i => some i
  | .error _ => none

end Sys2Proof
end

