-- ==== Sys2Proof/Config.lean ====
section
/-! DEFINITION. The parameters an implementation of the block fixes (00_scope.md R5, R6). The spec leaves no result of a
command undefined, so there is no free value here. -/

namespace Sys2Proof

/-- A memory capacity: a natural number of bytes, or `INF` (00_scope.md R6). -/
inductive Capacity where
  /-- `INF`: the memory is unbounded. -/
  | inf
  /-- The memory holds `n` bytes, at the addresses below `n`. -/
  | bytes (n : Nat)
  deriving DecidableEq, Repr

/-- The parameters of one block. -/
structure Config where
  /-- `WORD_BYTES`, the bytes of the platform word (00_scope.md R5). -/
  wordBytes : Nat
  /-- `HDR_CAP` (00_scope.md R6). -/
  hdrCap : Capacity
  /-- `PKD_CAP` (00_scope.md R6). -/
  pkdCap : Capacity
  deriving DecidableEq, Repr

/-- `CNT_W`, the width of `COUNT` and of every size result (00_scope.md R5). -/
def Config.cntW (c : Config) : Nat := 8 * c.wordBytes

/-- The spec's default configuration: `WORD_BYTES = 8`, both capacities `INF` (00_scope.md section 3). -/
def Config.default : Config := { wordBytes := 8, hdrCap := .inf, pkdCap := .inf }

end Sys2Proof
end

