-- ==== Sys2Proof/Machine/State.lean ====
section
/-! DEFINITION. The state of the block: every register and memory of 10_state.md, the parameters it was built with, what
the host has still to send, and the responses given. -/

namespace Sys2Proof.Machine

/-- A byte memory: its (address, byte) pairs, addresses strictly rising, no byte equal to what an unlisted address reads
as. `Memory.wf` in `Machine/Ops.lean` says so. -/
abbrev Memory := List Host.Cell

/-- The four staging registers `S[0]` to `S[3]` (10_state.md R15). -/
structure Staging where
  r0 : Value
  r1 : Value
  r2 : Value
  r3 : Value
  deriving DecidableEq, Repr

/-- What `CAUSE` holds: exactly the codes 0 to 4 (60_exceptions.md R120, 93_implementation_defined.md U14). -/
inductive Cause where
  /-- Code 0: the block has not faulted. -/
  | none
  /-- Code 1: a value's bytes would pass `PLEN` (60_exceptions.md R128). -/
  | decodeOutOfRange
  /-- Code 2: the flush does not fit a capacity (60_exceptions.md R121). -/
  | capacityOverflow
  /-- Code 3: the opcode is reserved (60_exceptions.md R122). -/
  | illegalCommand
  /-- Code 4: a read-out index is at or past the length (60_exceptions.md R123). -/
  | indexOutOfRange
  deriving DecidableEq, Repr

/-- The response to one command (30_encoding.md R62). -/
inductive Response where
  | ok
  | word (n : Nat)
  | values (q : List Value)
  | fault (c : Cause)
  deriving DecidableEq, Repr

/-- What the host does to the block (60_exceptions.md R132). -/
inductive HostEvent where
  /-- The host offers a command word (30_encoding.md R64). -/
  | command (w : CmdWord)
  /-- The host asserts `rst` between two commands (70_reset_and_hazards.md R140, R141). -/
  | reset
  deriving DecidableEq, Repr

/-- Reasons the MODEL stops with a fault: there are none. Every fault of the spec (60_exceptions.md R120) is taken as a
next state with `FAULT = 1` (R124), and every rule is total on every state (10_state.md R25). -/
inductive Fault where
  deriving DecidableEq, Repr

/-- Reasons the MODEL gives no meaning. -/
inductive Refusal where
  /-- Raised by an arm of `exec` whose instruction has no meaning yet; safe. No arm raises it. -/
  | notModelled (mnemonic : String)
  /-- Raised by `step` when the parameters are no configuration of this hardware (93_implementation_defined.md U15,
  treatment `refuse`); safe: nothing is claimed about such a block. -/
  | illegalConfiguration
  deriving DecidableEq, Repr

/-- The state of the block. -/
structure State where
  /-- The parameters of the block (00_scope.md R5, R6); the MODEL's own field, written by nothing. -/
  cfg : Config
  /-- `COUNT` (10_state.md R11). -/
  count : Nat
  /-- `HLEN` (10_state.md R12). -/
  hlen : Nat
  /-- `PLEN` (10_state.md R13). -/
  plen : Nat
  /-- `SLEN` (10_state.md R14); 5, 6 and 7 are not representable (93_implementation_defined.md U10). -/
  slen : Fin 5
  /-- `S[0..3]` (10_state.md R15). -/
  stg : Staging
  /-- The header memory `HDR` (20_memory.md R30). -/
  hdr : Memory
  /-- The packed memory `PKD` (20_memory.md R30). -/
  pkd : Memory
  /-- `FAULT` (10_state.md R16). -/
  fault : Bool
  /-- `CAUSE` (10_state.md R16). -/
  cause : Cause
  /-- What the host has still to do, oldest first; the MODEL's own field. -/
  inbox : List HostEvent
  /-- The responses given, oldest first (30_encoding.md R62); the MODEL's own field. -/
  responses : List Response
  deriving DecidableEq, Repr

/-- What one step or one command answers. -/
abbrev Out := Host.Outcome State Fault Refusal

/-- A block of the given parameters right after reset (10_state.md R27, 70_reset_and_hazards.md R140). DESIGN CHOICE: the
dead registers `S[0..3]` hold 0 and the dead memories list nothing; the spec leaves both unspecified (log entries 1, 2). -/
def State.resetWith (c : Config) : State where
  cfg := c
  count := 0
  hlen := 0
  plen := 0
  slen := 0
  stg := { r0 := 0, r1 := 0, r2 := 0, r3 := 0 }
  hdr := []
  pkd := []
  fault := false
  cause := .none
  inbox := []
  responses := []

/-- The block of the spec's default parameters right after reset (log entry 3). -/
def State.reset : State := State.resetWith Config.default

end Sys2Proof.Machine
end

