-- ==== Sys2Proof/Machine/Ops.lean ====
section
/-! DEFINITION. The named operations over memory, registers and channels: the primitives of 00_scope.md section 7, taking a
fault (60_exceptions.md R124), and reset (70_reset_and_hazards.md R140), which is the only way out of one (R127). -/

namespace Sys2Proof.Machine

/-! ### Memory -/

/-- What an address no entry lists reads as. DESIGN CHOICE: dead bytes are unspecified (20_memory.md R32) and no command
reads one (log entry 2). -/
def unlistedByte : Byte := 0

/-- The byte at an address. -/
def Memory.read : Memory → Nat → Byte
  | [], _ => unlistedByte
  | (x, c) :: m, a => if a < x then unlistedByte else if a = x then c else Memory.read m a

/-- An entry put in front, unless it says no more than an unlisted address does. -/
def Memory.consCell (a : Nat) (b : Byte) (m : Memory) : Memory :=
  if b = unlistedByte then m else (a, b) :: m

/-- The memory with one byte written. -/
def Memory.write : Memory → Nat → Byte → Memory
  | [], a, b => Memory.consCell a b []
  | (x, c) :: m, a, b =>
    if a < x then Memory.consCell a b ((x, c) :: m)
    else if a = x then Memory.consCell a b m
    else (x, c) :: Memory.write m a b

/-- The memory with a sequence of bytes written from an address up, lowest address first. -/
def Memory.writeBytes : Memory → Nat → List Byte → Memory
  | m, _, [] => m
  | m, a, b :: bs => Memory.writeBytes (Memory.write m a b) (a + 1) bs

/-- The canonical form, for entries at or above `lo`. -/
def Memory.wfFrom (lo : Nat) : Memory → Bool
  | [] => true
  | (a, b) :: m => decide (lo ≤ a) && decide (b ≠ unlistedByte) && Memory.wfFrom (a + 1) m

/-- The canonical form: addresses strictly rising, no byte an unlisted address reads as. -/
def Memory.wf (m : Memory) : Bool := Memory.wfFrom 0 m

/-- The two address spaces, and no other (20_memory.md R30). -/
inductive Space where
  | hdr
  | pkd
  deriving DecidableEq, Repr

/-- The memory of a space. -/
def State.mem (s : State) : Space → Memory
  | .hdr => s.hdr
  | .pkd => s.pkd

/-- `LEN(space)`: the number of live bytes (20_memory.md R31, R33). -/
def State.len (s : State) : Space → Nat
  | .hdr => s.hlen
  | .pkd => s.plen

/-- `CAP(space)` (20_memory.md R34). -/
def State.cap (s : State) : Space → Capacity
  | .hdr => s.cfg.hdrCap
  | .pkd => s.cfg.pkdCap

/-- `n <= CAP`; always true of `INF` (41_encoder.md R80). -/
def capAdmits (c : Capacity) (n : Nat) : Bool :=
  match c with
  | .inf => true
  | .bytes k => decide (n ≤ k)

/-- The byte of a space at an address. -/
def State.readByte (s : State) (sp : Space) (a : Nat) : Byte := Memory.read (s.mem sp) a

/-- `MemRead(space, addr, n)` (20_memory.md R33); every caller checks first that the bytes are live. -/
def State.memRead (s : State) (sp : Space) (addr n : Nat) : List Byte :=
  (List.range n).map fun k => s.readByte sp (addr + k)

/-- `MemWrite(space, addr, n, bytes)`, `n` the number of bytes (20_memory.md R34). -/
def State.memWrite (s : State) (sp : Space) (addr : Nat) (bytes : List Byte) : State :=
  match sp with
  | .hdr => { s with hdr := Memory.writeBytes s.hdr addr bytes }
  | .pkd => { s with pkd := Memory.writeBytes s.pkd addr bytes }

/-- `headers = [HDR[0], ..., HDR[HLEN-1]]` (10_state.md R28). -/
def State.headers (s : State) : List Byte := s.memRead .hdr 0 s.hlen

/-- `packed = [PKD[0], ..., PKD[PLEN-1]]` (10_state.md R28). -/
def State.packed (s : State) : List Byte := s.memRead .pkd 0 s.plen

/-! ### Staging registers -/

/-- The four registers in order. -/
def Staging.toList (g : Staging) : List Value := [g.r0, g.r1, g.r2, g.r3]

/-- `S[i]` (10_state.md R15); there is no register past `S[3]`, and no caller asks for one. -/
def Staging.reg (g : Staging) (i : Nat) : Value := g.toList.getD i 0

/-- `S[i] <- v` (00_scope.md section 7). -/
def Staging.set (g : Staging) (i : Fin 4) (v : Value) : Staging :=
  match i with
  | 0 => { g with r0 := v }
  | 1 => { g with r1 := v }
  | 2 => { g with r2 := v }
  | 3 => { g with r3 := v }

/-- `staging = [S[0], ..., S[SLEN-1]]` (10_state.md R28). -/
def State.staging (s : State) : List Value := s.stg.toList.take s.slen.val

/-- The register the next value goes to, unless all four are live. -/
def freeSlot (n : Fin 5) : Option (Fin 4) :=
  if h : n.val < 4 then some ⟨n.val, h⟩ else none

/-- `S[SLEN] <- x`, `SLEN <- SLEN + 1`, `COUNT <- COUNT + 1`, where `k = SLEN` (41_encoder.md R77, R78). -/
def State.stage (k : Fin 4) (x : Value) (s : State) : State :=
  { s with stg := s.stg.set k x, slen := k.succ, count := s.count + 1 }

/-! ### The codec registers together -/

/-- `COUNT`, `HLEN`, `PLEN`, `SLEN <- 0`; the storage becomes dead and is not written (41_encoder.md R75, 10_state.md R18). -/
def State.clear (s : State) : State := { s with count := 0, hlen := 0, plen := 0, slen := 0 }

/-- `FOOTPRINT` (10_state.md R17). -/
def State.footprint (s : State) : Nat := s.cfg.wordBytes + s.plen + s.hlen + 4 * s.slen.val

/-! ### Responses, taking a fault, reset -/

/-- The response joins those given before it (30_encoding.md R62). -/
def State.respond (r : Response) (s : State) : State := { s with responses := s.responses ++ [r] }

/-- `FAULT <- 1`, `CAUSE <- c` (60_exceptions.md R124). -/
def State.latch (c : Cause) (s : State) : State := { s with fault := true, cause := c }

/-- `respond r` (00_scope.md section 7). -/
def answer (r : Response) (s : State) : Out := .next (s.respond r)

/-- `raise c`: taking a fault. Nothing changes but `FAULT` and `CAUSE`, and the response is `Fault(c)`
(60_exceptions.md R124). -/
def raise (c : Cause) (s : State) : Out := .next ((s.latch c).respond (.fault c))

/-- The first line of every command: a block that has faulted answers `Fault(CAUSE)` and changes nothing
(60_exceptions.md R126). -/
def unlessFaulted (s : State) (run : Out) : Out :=
  if s.fault then answer (.fault s.cause) s else run

/-- What a word with a reserved opcode does (30_encoding.md R53, 60_exceptions.md R122, R125). -/
def illegalWord (s : State) : Out := unlessFaulted s (raise .illegalCommand s)

/-- `FAULT <- 0`, `CAUSE <- 0`: only reset does this (60_exceptions.md R127). -/
def State.unlatch (s : State) : State := { s with fault := false, cause := .none }

/-- The reset event: the empty codec state and no fault (70_reset_and_hazards.md R140). DEDUCED: the staging registers and the
memories, dead from then on, are not written (10_state.md R18, log entry 6). -/
def State.resetBlock (s : State) : State := s.clear.unlatch

end Sys2Proof.Machine
end

