-- ==== Sys2Proof/Machine/Operands.lean ====
section
/-! DEFINITION. The data forms of the codec: the width calculator (40_width.md), the header byte and the packed value
(30_encoding.md section 2 and 3), the group of four (41_encoder.md R85), and the index operand of a read-out. -/

namespace Sys2Proof.Machine

/-- The width calculator (40_width.md R70), the one and only (R73). -/
def width (x : Value) : Nat :=
  if x.toNat ≤ 0x000000FF then 1
  else if x.toNat ≤ 0x0000FFFF then 2
  else if x.toNat ≤ 0x00FFFFFF then 3
  else 4

/-- `field(h, i)`, for `i` in 0..3 (30_encoding.md R56). -/
def field (h : Byte) (i : Nat) : Nat := (h.toNat >>> (6 - 2 * i)) &&& 0b11

/-- `hdr(w0, w1, w2, w3)`, for widths in 1..4 (30_encoding.md R56). -/
def hdrByte (w0 w1 w2 w3 : Nat) : Byte :=
  BitVec.ofNat 8 (((w0 - 1) <<< 6) ||| ((w1 - 1) <<< 4) ||| ((w2 - 1) <<< 2) ||| (w3 - 1))

/-- The header parser: a header byte's four widths, position 0 first (42_decoder.md R91). -/
def headerWidths (h : Byte) : List Nat := [field h 0 + 1, field h 1 + 1, field h 2 + 1, field h 3 + 1]

/-- The widths of all values a header sequence describes, in decoding order (42_decoder.md R91). -/
def widthsOf (headers : List Byte) : List Nat := headers.flatMap headerWidths

/-- `be(x, w)`: `b_j = (x >> (8 * (w - 1 - j))) & 0xFF` (30_encoding.md R58). -/
def be (x : Value) (w : Nat) : List Byte :=
  (List.range w).map fun j => BitVec.ofNat 8 ((x.toNat >>> (8 * (w - 1 - j))) &&& 0xFF)

/-- The number a big-endian byte sequence spells (30_encoding.md R59). -/
def unbeNat : List Byte → Nat
  | [] => 0
  | b :: bs => b.toNat * 256 ^ bs.length + unbeNat bs

/-- `unbe`, taken as a 32-bit value (30_encoding.md R59). -/
def unbe (bytes : List Byte) : Value := BitVec.ofNat 32 (unbeNat bytes)

/-- The bytes the encoder gives a value: minimal width, big-endian (30_encoding.md R60, 41_encoder.md R76). -/
def packedValue (v : Value) : List Byte := be v (width v)

/-- `need`, the bytes of a group in `PKD` (41_encoder.md R76). -/
def groupNeed (g : Staging) : Nat := width g.r0 + width g.r1 + width g.r2 + width g.r3

/-- The bytes of a group: lane 0 first, lane 3 last, nothing between (41_encoder.md R76, R85, 30_encoding.md R61). -/
def groupBytes (g : Staging) : List Byte :=
  packedValue g.r0 ++ packedValue g.r1 ++ packedValue g.r2 ++ packedValue g.r3

/-- The header byte of a group (41_encoder.md R76, R85). -/
def groupHeader (g : Staging) : Byte := hdrByte (width g.r0) (width g.r1) (width g.r2) (width g.r3)

/-- The index operand of a read-out: `arg` whole, unsigned (30_encoding.md R51). -/
def indexOf (a : Arg) : Nat := a.toNat

end Sys2Proof.Machine
end

