-- ==== Sys2Proof/Machine/Decoder.lean ====
section
/-! DEFINITION. The decoder: the byte unpacker, the decode function and `DECODE` (42_decoder.md). -/

namespace Sys2Proof.Machine

/-- The byte unpacker: one value for each width, from the cursor `cur` on; nothing as soon as a value's bytes would pass
the end of `packed` (42_decoder.md R91, R93). -/
def unpack (packed : List Byte) : List Nat → Nat → Option (List Value)
  | [], _ => some []
  | w :: ws, cur =>
    if cur + w > packed.length then none
    else (unpack packed ws (cur + w)).map fun vs => unbe ((packed.drop cur).take w) :: vs

/-- `dec(headers, packed, staging)`: the unpacked values and the staged ones after them, or nothing where it returns
`Fault(DecodeOutOfRange)` (42_decoder.md R91, R92). -/
def dec (headers packed : List Byte) (staging : List Value) : Option (List Value) :=
  (unpack packed (widthsOf headers) 0).map fun out => out ++ staging

/-- `DECODE`: return every value added, in order (42_decoder.md R90). -/
def execDecode (s : State) : Out :=
  unlessFaulted s
    (match dec s.headers s.packed s.staging with
    | some q => answer (.values q) s
    | none => raise .decodeOutOfRange s)

end Sys2Proof.Machine
end

