-- ==== Sys2Proof/Machine/Encoder.lean ====
section
/-! DEFINITION. The encoder: `NEW`, `ADD` and the flush (41_encoder.md). -/

namespace Sys2Proof.Machine

/-- `NEW`: make the codec state empty (41_encoder.md R75). -/
def execNew (s : State) : Out := unlessFaulted s (answer .ok s.clear)

/-- `fits()`: the flush fits both capacities (41_encoder.md R80). -/
def State.fits (s : State) : Bool :=
  capAdmits (s.cap .hdr) (s.hlen + 1) && capAdmits (s.cap .pkd) (s.plen + groupNeed s.stg)

/-- The length registers rise over what a flush of `need` bytes wrote, and the staging empties (41_encoder.md R76). -/
def State.commit (need : Nat) (s : State) : State :=
  { s with plen := s.plen + need, hlen := s.hlen + 1, slen := 0 }

/-- The flush: commits the four staged values as one group (41_encoder.md R76). -/
def State.flush (s : State) : State :=
  ((s.memWrite .pkd s.plen (groupBytes s.stg)).memWrite .hdr s.hlen [groupHeader s.stg]).commit (groupNeed s.stg)

/-- `ADD x`: with all four registers live, first the flush, if it fits; then `x` is staged (41_encoder.md R77, R78). -/
def execAdd (x : Value) (s : State) : Out :=
  unlessFaulted s
    (match freeSlot s.slen with
    | some k => answer .ok (s.stage k x)
    | none => if s.fits then answer .ok (s.flush.stage 0 x) else raise .capacityOverflow s)

end Sys2Proof.Machine
end

