-- ==== Sys2Proof/Machine/Queries.lean ====
section
/-! DEFINITION. The queries: `WIDTH` (40_width.md), the size queries, the length read-outs and the content read-outs
(43_queries.md). -/

namespace Sys2Proof.Machine

/-- `COUNT`: the number of values added (43_queries.md R105). -/
def execCount (s : State) : Out := unlessFaulted s (answer (.word s.count) s)

/-- `FOOTPRINT`: the encoded byte footprint (43_queries.md R106). -/
def execFootprint (s : State) : Out := unlessFaulted s (answer (.word s.footprint) s)

/-- `WIDTH x`: ask the width calculator (40_width.md R72). -/
def execWidth (x : Value) (s : State) : Out := unlessFaulted s (answer (.word (width x)) s)

/-- The content read-outs of the memories: one live byte, or `IndexOutOfRange` (43_queries.md R111, R112). -/
def readOut (sp : Space) (a : Nat) (s : State) : Out :=
  if a ≥ s.len sp then raise .indexOutOfRange s else answer (.word (s.readByte sp a).toNat) s

/-- `RDHDR a`: read one header byte (43_queries.md R111). -/
def execRdhdr (a : Arg) (s : State) : Out := unlessFaulted s (readOut .hdr (indexOf a) s)

/-- `RDPKD a`: read one packed byte (43_queries.md R112). -/
def execRdpkd (a : Arg) (s : State) : Out := unlessFaulted s (readOut .pkd (indexOf a) s)

/-- `RDSTG i`: read one staged value (43_queries.md R113). -/
def execRdstg (i : Arg) (s : State) : Out :=
  unlessFaulted s
    (if indexOf i ≥ s.slen.val then raise .indexOutOfRange s else answer (.word (s.stg.reg (indexOf i)).toNat) s)

/-- `HLEN`: the number of header bytes (43_queries.md R108). -/
def execHlen (s : State) : Out := unlessFaulted s (answer (.word s.hlen) s)

/-- `PLEN`: the number of packed bytes (43_queries.md R109). -/
def execPlen (s : State) : Out := unlessFaulted s (answer (.word s.plen) s)

/-- `SLEN`: the number of staged values (43_queries.md R110). -/
def execSlen (s : State) : Out := unlessFaulted s (answer (.word s.slen.val) s)

end Sys2Proof.Machine
end

