-- ==== Sys2Proof/Machine/Dispatch.lean ====
section
/-! DEFINITION. One arm per command: its meaning. -/

namespace Sys2Proof.Machine

def exec (i : Instr) (s : State) : Host.Outcome State Fault Refusal :=
  match i with
  | .new => Sys2Proof.Machine.execNew s
  | .add x => Sys2Proof.Machine.execAdd x s
  | .decode => Sys2Proof.Machine.execDecode s
  | .count => Sys2Proof.Machine.execCount s
  | .footprint => Sys2Proof.Machine.execFootprint s
  | .width x => Sys2Proof.Machine.execWidth x s
  | .rdhdr a => Sys2Proof.Machine.execRdhdr a s
  | .rdpkd a => Sys2Proof.Machine.execRdpkd a s
  | .rdstg k => Sys2Proof.Machine.execRdstg k s
  | .hlen => Sys2Proof.Machine.execHlen s
  | .plen => Sys2Proof.Machine.execPlen s
  | .slen => Sys2Proof.Machine.execSlen s

end Sys2Proof.Machine
end

