-- ==== Sys2Proof/WellFormed.lean ====
section
/-! DEFINITION. What is checked before anything runs: the parameters of a block and a line of a listing. A command (`Instr`)
needs no check: each of its operands may be any 32-bit number (30_encoding.md R51, R53), which its type already says. -/

namespace Sys2Proof

/-- The bound on `CNT_W` when both capacities are finite; a capacity `INF` places none (00_scope.md R6). -/
def Config.sizesFit (c : Config) : Bool :=
  match c.hdrCap, c.pkdCap with
  | .bytes h, .bytes p =>
    decide (4 * h + 4 ≤ 2 ^ c.cntW - 1) && decide (c.wordBytes + p + h + 16 ≤ 2 ^ c.cntW - 1)
  | .bytes _, .inf => true
  | .inf, .bytes _ => true
  | .inf, .inf => true

/-- A legal configuration: `WORD_BYTES` is positive and the size results cannot overflow (00_scope.md R5, R6). Any other is
not a configuration of this hardware (93_implementation_defined.md U15). -/
def Config.legal (c : Config) : Bool :=
  decide (1 ≤ c.wordBytes) && c.sizesFit

/-- A line of a listing spells a command: an operand where, and only where, the command takes one, in the range 0 to
2^32 - 1 (30_encoding.md R65). -/
def Line.wf (l : Line) : Bool :=
  match l.operand with
  | none => !l.mnemonic.takesOperand
  | some n => l.mnemonic.takesOperand && decide (n < 2 ^ 32)

end Sys2Proof
end

