-- ==== Sys2Proof/Machine/Fetch.lean ====
section
/-! DEFINITION. What the block does with what the host sends: the next command word or a reset. The block fetches no
instructions (10_state.md R19): each command comes from the host, in the order the host sends them. -/

namespace Sys2Proof.Machine

/-- A command word is accepted: the command it spells is performed, and a reserved one raises `IllegalCommand`. The sticky
fault comes first in both (60_exceptions.md R125, R126). -/
def runWord (w : CmdWord) (s : State) : Out :=
  match decode w with
  | .ok i => exec i s
  | .error (.reservedOpcode _) => illegalWord s

/-- One act of the host is taken off the list. -/
def State.withInbox (es : List HostEvent) (s : State) : State := { s with inbox := es }

/-- What one act of the host does to the block. -/
def hostAct (e : HostEvent) (s : State) : Out :=
  match e with
  | .command w => runWord w s
  | .reset => .next s.resetBlock

/-- One step: the next act of the host, whole. With none to come the block does not change (60_exceptions.md R132, log entry 4).
Parameters that are no configuration of this hardware get no meaning (93_implementation_defined.md U15, log entry 7). -/
def stepBlock (s : State) : Out :=
  if s.cfg.legal then
    match s.inbox with
    | [] => .next s
    | e :: es => hostAct e (s.withInbox es)
  else .refused .illegalConfiguration

/-- The host offers a command word before anything else it has still to do. -/
def State.offer (w : CmdWord) (s : State) : State := s.withInbox (.command w :: s.inbox)

end Sys2Proof.Machine
end

