-- ==== Sys2Proof/Machine/Step.lean ====
section
/-! DEFINITION. One step of the block, and the placing of one instruction for it. -/

namespace Sys2Proof.Machine

/-- One step: one act of the host (00_scope.md R7). -/
def step (s : State) : Host.Outcome State Fault Refusal := stepBlock s

/-- The host offers the command word whose bits are `w` as its next act (log entry 4). -/
def State.withFetchWord (s : State) (nbits w : Nat) : State := s.offer (tableWord nbits w)

end Sys2Proof.Machine
end

