-- ==== Sys2Proof/Machine/Flags.lean ====
section
/-! DEFINITION. The block's only flags, `FAULT` and `CAUSE`: their codes, the status register and the pins
(10_state.md R16, 30_encoding.md R64). There are no flags for carry, overflow, zero or sign (43_queries.md R115). -/

namespace Sys2Proof.Machine

/-- The code of a cause (60_exceptions.md R120). -/
def Cause.code : Cause → BitVec 3
  | .none => 0
  | .decodeOutOfRange => 1
  | .capacityOverflow => 2
  | .illegalCommand => 3
  | .indexOutOfRange => 4

/-- `STATUS[3] = FAULT`, `STATUS[2:0] = CAUSE` (10_state.md R16). -/
def State.status (s : State) : BitVec 4 := BitVec.ofBool s.fault ++ s.cause.code

/-- The output pins that follow the status register at all times (30_encoding.md R64). -/
structure Pins where
  fault : Bool
  cause : BitVec 3
  deriving DecidableEq, Repr

/-- What the pins show (10_state.md R16, 30_encoding.md R64). -/
def State.pins (s : State) : Pins := { fault := s.fault, cause := s.cause.code }

end Sys2Proof.Machine
end

