-- ==== Sys2Proof/Machine/Ports.lean ====
section
/-! DEFINITION. The wires: a response as a run of beats (30_encoding.md R63) and the two channels (R64), without time
(00_scope.md R7). `step` does not use them: there the host takes each response whole (log entries 5, 10). -/

namespace Sys2Proof.Machine

/-- `kind` of a beat (30_encoding.md R63). -/
inductive BeatKind where
  | ok
  | word
  | value
  | fault
  deriving DecidableEq, Repr

/-- The number of a kind: 0 = OK, 1 = WORD, 2 = VALUE, 3 = FAULT (30_encoding.md R63). -/
def BeatKind.code : BeatKind → BitVec 2
  | .ok => 0
  | .word => 1
  | .value => 2
  | .fault => 3

/-- A beat `kind, last, data`. `data` is the number the `RSP_W` wires carry; with a capacity `INF` it is not bounded and the
wire format is an idealisation (30_encoding.md R63). -/
structure Beat where
  kind : BeatKind
  last : Bool
  data : Nat
  deriving DecidableEq, Repr

/-- `RSP_W = max(32, CNT_W)` (30_encoding.md R63). -/
def rspW (p : Config) : Nat := max 32 p.cntW

/-- The beats of a response (30_encoding.md R63). -/
def Response.beats : Response → List Beat
  | .ok => [{ kind := .ok, last := true, data := 0 }]
  | .word n => [{ kind := .word, last := true, data := n }]
  | .values q => (q.map fun v => { kind := .value, last := false, data := v.toNat }) ++
      [{ kind := .ok, last := true, data := 0 }]
  | .fault c => [{ kind := .fault, last := true, data := c.code.toNat }]

/-- The block between its two channels: its state, and the beats of the present response not yet taken. -/
structure Wires where
  block : State
  offered : List Beat
  deriving DecidableEq, Repr

/-- `cmd_ready`: no command is accepted before the last beat of the response to the one before is taken
(70_reset_and_hazards.md R148). -/
def Wires.cmdReady (p : Wires) : Bool := p.offered.isEmpty

/-- `rsp_valid`: a beat is offered. -/
def Wires.rspValid (p : Wires) : Bool := !p.offered.isEmpty

/-- The beats of the response given last. -/
def lastBeats (s : State) : List Beat :=
  match s.responses.getLast? with
  | some r => r.beats
  | none => []

/-- `cmd_valid` with a word: accepted when `cmd_ready`, and then the command is performed whole and its response offered. -/
def Wires.accept (w : CmdWord) (p : Wires) : Option Wires :=
  if p.cmdReady then
    match runWord w p.block with
    | .next s => some { block := s, offered := lastBeats s }
    | .fault _ => none
    | .refused _ => none
  else none

/-- `rsp_ready`: the host takes the beat offered. -/
def Wires.take (p : Wires) : Option (Beat × Wires) :=
  match p.offered with
  | [] => none
  | b :: bs => some (b, { p with offered := bs })

/-- `rst` between two commands; while one is in progress the model gives it no meaning (70_reset_and_hazards.md R141,
93_implementation_defined.md U8). -/
def Wires.assertReset (p : Wires) : Option Wires :=
  if p.cmdReady then some { p with block := p.block.resetBlock } else none

end Sys2Proof.Machine
end

