-- ==== Sys2Proof/Machine/Abstract.lean ====
section
/-! DEFINITION. The abstract view of the block (10_state.md R10, R28): the source's codec state, three sequences and a
number, with the fault pair. `step` does not use it. It is the second form the spec allows a model to take, written out so
that the two can be compared. -/

namespace Sys2Proof.Machine

/-- The source's codec state (10_state.md R10). -/
structure Codec where
  count : Nat
  headers : List Byte
  packed : List Byte
  staging : List Value
  deriving DecidableEq, Repr

/-- The codec state and the fault pair: all there is (10_state.md R10). -/
structure View where
  codec : Codec
  fault : Bool
  cause : Cause
  deriving DecidableEq, Repr

/-- `count = COUNT`, `headers = [HDR[0], ...]`, `packed = [PKD[0], ...]`, `staging = [S[0], ...]` (10_state.md R28). -/
def State.codec (s : State) : Codec :=
  { count := s.count, headers := s.headers, packed := s.packed, staging := s.staging }

/-- The abstract view of a register state (10_state.md R28). -/
def State.view (s : State) : View := { codec := s.codec, fault := s.fault, cause := s.cause }

/-- "State is created empty" (10_state.md R26, R27). -/
def Codec.empty : Codec := { count := 0, headers := [], packed := [], staging := [] }

/-- The header byte of four staged values (41_encoder.md R76). -/
def headerFor (a b c d : Value) : Byte := hdrByte (width a) (width b) (width c) (width d)

/-- The value joins the staging and is counted (41_encoder.md R77, in the abstract view). -/
def Codec.append (k : Codec) (x : Value) : Codec :=
  { k with staging := k.staging ++ [x], count := k.count + 1 }

/-- The flush, if exactly four values are staged (41_encoder.md R76, in the abstract view). -/
def Codec.flush (k : Codec) : Codec :=
  match k.staging with
  | [a, b, c, d] =>
    { k with
      packed := k.packed ++ (packedValue a ++ packedValue b ++ packedValue c ++ packedValue d)
      headers := k.headers ++ [headerFor a b c d]
      staging := [] }
  | _ => k

/-- Whether the codec state after a flush is within the capacities (41_encoder.md R80, in the abstract view). -/
def Codec.within (p : Config) (k : Codec) : Bool :=
  capAdmits p.hdrCap k.headers.length && capAdmits p.pkdCap k.packed.length

/-- The footprint (43_queries.md R106, in the source's words). -/
def Codec.footprint (p : Config) (k : Codec) : Nat :=
  p.wordBytes + k.packed.length + k.headers.length + 4 * k.staging.length

/-- Taking a fault (60_exceptions.md R124). -/
def View.raise (v : View) (c : Cause) : View × Response := ({ v with fault := true, cause := c }, .fault c)

/-- Element `i` of a sequence as a response word, or `IndexOutOfRange` (43_queries.md R111, R112, R113). -/
def View.readAt (v : View) (q : List Nat) (i : Nat) : View × Response :=
  match q[i]? with
  | some n => (v, .word n)
  | none => v.raise .indexOutOfRange

/-- One command on the abstract view: the next view and the response (every command rule, in the abstract view). -/
def View.perform (p : Config) (i : Instr) (v : View) : View × Response :=
  if v.fault then (v, .fault v.cause)
  else
    match i with
    | .new => ({ v with codec := Codec.empty }, .ok)
    | .add x =>
      if v.codec.staging.length = 4 then
        if v.codec.flush.within p then ({ v with codec := v.codec.flush.append x }, .ok)
        else v.raise .capacityOverflow
      else ({ v with codec := v.codec.append x }, .ok)
    | .decode =>
      match dec v.codec.headers v.codec.packed v.codec.staging with
      | some q => (v, .values q)
      | none => v.raise .decodeOutOfRange
    | .count => (v, .word v.codec.count)
    | .footprint => (v, .word (v.codec.footprint p))
    | .width x => (v, .word (width x))
    | .rdhdr a => v.readAt (v.codec.headers.map BitVec.toNat) a.toNat
    | .rdpkd a => v.readAt (v.codec.packed.map BitVec.toNat) a.toNat
    | .rdstg k => v.readAt (v.codec.staging.map BitVec.toNat) k.toNat
    | .hlen => (v, .word v.codec.headers.length)
    | .plen => (v, .word v.codec.packed.length)
    | .slen => (v, .word v.codec.staging.length)

/-- One command word on the abstract view: a reserved one raises `IllegalCommand` (60_exceptions.md R122, R125). -/
def View.performWord (p : Config) (w : CmdWord) (v : View) : View × Response :=
  match decode w with
  | .ok i => v.perform p i
  | .error (.reservedOpcode _) => if v.fault then (v, .fault v.cause) else v.raise .illegalCommand

end Sys2Proof.Machine
end

