-- ==== Sys2Proof/Machine/Listing.lean ====
section
/-! DEFINITION. Command listings: the syntax of a line, its command word, and the pseudo-command `BUILD`
(30_encoding.md R65, R66). DESIGN CHOICE: what the rules leave open of blanks and of hexadecimal digits is fixed here (log
entry 9). -/

namespace Sys2Proof.Machine

/-- The text of a mnemonic (30_encoding.md R52, R65). -/
def mnemonicText : Mnemonic → List Char
  | .new => ['N', 'E', 'W']
  | .add => ['A', 'D', 'D']
  | .decode => ['D', 'E', 'C', 'O', 'D', 'E']
  | .count => ['C', 'O', 'U', 'N', 'T']
  | .footprint => ['F', 'O', 'O', 'T', 'P', 'R', 'I', 'N', 'T']
  | .width => ['W', 'I', 'D', 'T', 'H']
  | .rdhdr => ['R', 'D', 'H', 'D', 'R']
  | .rdpkd => ['R', 'D', 'P', 'K', 'D']
  | .rdstg => ['R', 'D', 'S', 'T', 'G']
  | .hlen => ['H', 'L', 'E', 'N']
  | .plen => ['P', 'L', 'E', 'N']
  | .slen => ['S', 'L', 'E', 'N']

/-- All mnemonics, in the order of the opcode map. -/
def allMnemonics : List Mnemonic :=
  [.new, .add, .decode, .count, .footprint, .width, .rdhdr, .rdpkd, .rdstg, .hlen, .plen, .slen]

/-- The text of the pseudo-command (30_encoding.md R66). -/
def buildText : List Char := ['B', 'U', 'I', 'L', 'D']

/-- The digit a character is, in a base up to 16. -/
def digitOf (base : Nat) (c : Char) : Option Nat :=
  let n := c.toNat
  let d :=
    if 48 ≤ n ∧ n ≤ 57 then n - 48
    else if 65 ≤ n ∧ n ≤ 70 then n - 55
    else if 97 ≤ n ∧ n ≤ 102 then n - 87
    else 16
  if d < base then some d else none

/-- The number digits spell after `acc`. -/
def digitsFrom (base acc : Nat) : List Char → Option Nat
  | [] => some acc
  | c :: cs =>
    match digitOf base c with
    | some d => digitsFrom base (acc * base + d) cs
    | none => none

/-- The number one or more digits spell. -/
def digits (base : Nat) : List Char → Option Nat
  | [] => none
  | c :: cs => digitsFrom base 0 (c :: cs)

/-- An operand: a decimal number, or `0x` and hexadecimal digits (30_encoding.md R65). -/
def operandNumber : List Char → Option Nat
  | '0' :: 'x' :: cs => digits 16 cs
  | cs => digits 10 cs

/-- Text without the blanks at its end. -/
def trimEnd (cs : List Char) : List Char := (cs.reverse.dropWhile fun c => c == ' ').reverse

/-- Text from `;` to the end of the line is a comment (30_encoding.md R65). -/
def stripComment (cs : List Char) : List Char := trimEnd (cs.takeWhile fun c => c != ';')

/-- What a line of a listing holds. -/
inductive Source where
  /-- Nothing but blanks and a comment. -/
  | blank
  /-- A command. -/
  | command (l : Line)
  /-- `BUILD v1, ..., vn`. -/
  | build (vs : List Nat)
  deriving DecidableEq, Repr

/-- The pieces of a text between its commas. -/
def splitCommas : List Char → List (List Char)
  | [] => [[]]
  | c :: cs =>
    if c = ',' then [] :: splitCommas cs
    else
      match splitCommas cs with
      | [] => [[c]]
      | p :: ps => (c :: p) :: ps

/-- The numbers of the operand texts of `BUILD` (30_encoding.md R66). DESIGN CHOICE: one more blank is dropped before every
operand, so that it may stand or be missing after a comma, and a second one may stand between `BUILD` and the first operand
(log entry 9). -/
def buildNumbers : List (List Char) → Option (List Nat)
  | [] => some []
  | p :: ps =>
    match operandNumber (match p with | ' ' :: cs => cs | cs => cs), buildNumbers ps with
    | some n, some ns => some (n :: ns)
    | _, _ => none

/-- The mnemonic a name is, in capitals. -/
def mnemonicNamed (name : List Char) : Option Mnemonic := allMnemonics.find? fun m => mnemonicText m == name

/-- The syntax of a line: the mnemonic, then, with an operand, one space and the operand (30_encoding.md R65); or `BUILD`
and its operands between commas (R66). -/
def parseLine (text : List Char) : Option Source :=
  let cs := stripComment text
  let name := cs.takeWhile fun c => c != ' '
  match cs.dropWhile fun c => c != ' ' with
  | [] =>
    if cs = [] then some .blank
    else if name = buildText then some (.build [])
    else (mnemonicNamed name).map fun m => .command { mnemonic := m, operand := none }
  | _ :: rest =>
    if name = buildText then (buildNumbers (splitCommas rest)).map .build
    else
      match mnemonicNamed name, operandNumber rest with
      | some m, some n => some (.command { mnemonic := m, operand := some n })
      | _, _ => none

/-- The command a well-formed line spells; with no operand, `arg = 0` (30_encoding.md R65). -/
def lineInstr (l : Line) : Option Instr :=
  if l.wf then some (l.mnemonic.withArg (BitVec.ofNat 32 (l.operand.getD 0))) else none

/-- `BUILD v1, ..., vn` stands for `NEW`, `ADD v1`, ..., `ADD vn` (30_encoding.md R66). -/
def build (vs : List Value) : List Instr := .new :: vs.map .add

/-- The commands of a line's source; none where it spells none or an operand is out of range. -/
def sourceInstrs : Source → Option (List Instr)
  | .blank => some []
  | .command l => (lineInstr l).map fun i => [i]
  | .build vs => if vs.all fun n => decide (n < 2 ^ 32) then some (build (vs.map (BitVec.ofNat 32))) else none

/-- The command words of a line of text, or none where it is no line of a listing. -/
def assembleLine (text : List Char) : Option (List CmdWord) :=
  match parseLine text with
  | some src => (sourceInstrs src).map fun is => is.map encode
  | none => none

end Sys2Proof.Machine
end

