-- ==== Sys2Proof/Safety.lean ====
section
/-! DEFINITION. What counts as a sound state of the block, and runs of commands: the terms the claims use. -/

namespace Sys2Proof.Machine

/-- `COUNT == 4 * HLEN + SLEN` (10_state.md R21). -/
abbrev CountInv (s : State) : Prop := s.count = 4 * s.hlen + s.slen.val

/-- `PLEN` is the sum of the widths the headers hold (10_state.md R23). -/
abbrev PackedInv (s : State) : Prop := s.plen = (widthsOf s.headers).sum

/-- The staging is empty only before the first `ADD` (10_state.md R24 (b)). -/
abbrev TailInv (s : State) : Prop := s.slen.val = 0 → s.hlen = 0

/-- Every packed value has its minimal width: the committed stream unpacks to values whose widths are those the headers hold
(10_state.md R23, 30_encoding.md R67). -/
abbrev MinimalInv (s : State) : Prop :=
  (unpack s.packed (widthsOf s.headers) 0).map (fun vs => vs.map width) = some (widthsOf s.headers)

/-- `CAUSE = 0` exactly when `FAULT = 0` (10_state.md R16). -/
abbrev FaultInv (s : State) : Prop := s.fault = true ↔ s.cause ≠ .none

/-- The lengths are within the capacities (10_state.md R12, R13). -/
abbrev CapInv (s : State) : Prop :=
  capAdmits s.cfg.hdrCap s.hlen = true ∧ capAdmits s.cfg.pkdCap s.plen = true

/-- The memories have their canonical form. -/
abbrev MemInv (s : State) : Prop := Memory.wf s.hdr = true ∧ Memory.wf s.pkd = true

/-- A sound state of the block: everything the spec says holds in every state reached from reset. -/
structure Sound (s : State) : Prop where
  count : CountInv s
  packed : PackedInv s
  tail : TailInv s
  minimal : MinimalInv s
  fault : FaultInv s
  cap : CapInv s
  mem : MemInv s

/-- The commands one after another, stopping where one answers no next state. -/
def runInstrs : List Instr → State → Out
  | [], s => .next s
  | i :: is, s =>
    match exec i s with
    | .next t => runInstrs is t
    | .fault r => .fault r
    | .refused r => .refused r

/-- The commands that change no codec state when they do not fault: all but `NEW` and `ADD` (10_state.md R26). -/
abbrev ReadOnly (i : Instr) : Prop := i ≠ .new ∧ ∀ x, i ≠ .add x

/-- `cs` is one or more digits in a base up to 16, in either case, of the number `n`, the most significant first. Said without
the reader of listings, so that a claim about it can be checked against the usual meaning of digits. -/
def SpellsIn (base : Nat) (cs : List Char) (n : Nat) : Prop :=
  ∃ ds : List Nat, ds ≠ [] ∧ (∀ d ∈ ds, d < base) ∧ cs.map Char.toLower = ds.map Nat.digitChar ∧
    n = Nat.ofDigits base ds.reverse

/-- `cs` is an operand of a listing, of the number `n`: decimal, or `0x` and hexadecimal digits (30_encoding.md R65). -/
def SpellsOperand (cs : List Char) (n : Nat) : Prop :=
  SpellsIn 10 cs n ∨ ∃ xs, cs = '0' :: 'x' :: xs ∧ SpellsIn 16 xs n

/-- The value a command adds, if it is an `ADD`. -/
def added : Instr → Option Value
  | .new => none
  | .add x => some x
  | .decode => none
  | .count => none
  | .footprint => none
  | .width _ => none
  | .rdhdr _ => none
  | .rdpkd _ => none
  | .rdstg _ => none
  | .hlen => none
  | .plen => none
  | .slen => none

/-- The values a list of commands adds, in order. -/
def addedValues (is : List Instr) : List Value := is.filterMap added

end Sys2Proof.Machine
end

