-- ==== Sys2Proof/Certificates/Slice0/Obligations.lean ====
section
/-! DEFINITION. What is to be proved about the block, rule by rule of spec/. -/

open Sys2Proof Sys2Proof.Machine

/-! ### Command words -/

/-- 30_encoding.md R51, R52: `cmd` spells a row's command exactly when `(cmd & mask) == match`; the operand is `arg` whole,
or `arg` is ignored. -/
def Obligations.OpcodeMapSpellsEachCommand : Prop :=
  ∀ w : CmdWord,
    (w &&& 0xF00000000 = 0x100000000 ↔ decode w = .ok .new) ∧
    (w &&& 0xF00000000 = 0x200000000 ↔ decode w = .ok (.add (w.extractLsb' 0 32))) ∧
    (w &&& 0xF00000000 = 0x300000000 ↔ decode w = .ok .decode) ∧
    (w &&& 0xF00000000 = 0x400000000 ↔ decode w = .ok .count) ∧
    (w &&& 0xF00000000 = 0x500000000 ↔ decode w = .ok .footprint) ∧
    (w &&& 0xF00000000 = 0x600000000 ↔ decode w = .ok (.width (w.extractLsb' 0 32))) ∧
    (w &&& 0xF00000000 = 0x700000000 ↔ decode w = .ok (.rdhdr (w.extractLsb' 0 32))) ∧
    (w &&& 0xF00000000 = 0x800000000 ↔ decode w = .ok (.rdpkd (w.extractLsb' 0 32))) ∧
    (w &&& 0xF00000000 = 0x900000000 ↔ decode w = .ok (.rdstg (w.extractLsb' 0 32))) ∧
    (w &&& 0xF00000000 = 0xA00000000 ↔ decode w = .ok .hlen) ∧
    (w &&& 0xF00000000 = 0xB00000000 ↔ decode w = .ok .plen) ∧
    (w &&& 0xF00000000 = 0xC00000000 ↔ decode w = .ok .slen)

/-- 30_encoding.md R50 to R53: every command is decoded from its own word, and a word that spells a command is that
command's word, up to the ignored `arg` of a command that takes no operand. -/
def Obligations.DecodeAndEncodeAgree : Prop :=
  (∀ i : Instr, decode (encode i) = .ok i) ∧
  (∀ (w : CmdWord) (i : Instr), decode w = .ok i →
    encode i = if i.mnemonic.takesOperand then w else w &&& 0xF00000000)

/-- 95_test_vectors.md V7 and P1: words written out bit by bit from 30_encoding.md R50 and R52. -/
def Obligations.SampleWordsDecode : Prop :=
  decode 0x1FFFFFFFF = .ok .new ∧ decode 0x20000012C = .ok (.add 300) ∧ decode 0x3FFFFFFFF = .ok .decode ∧
  decode 0x4DEADBEEF = .ok .count ∧ decode 0x500000000 = .ok .footprint ∧ decode 0x600011170 = .ok (.width 70000) ∧
  decode 0x7FFFFFFFF = .ok (.rdhdr 0xFFFFFFFF) ∧ decode 0x80000000A = .ok (.rdpkd 10) ∧
  decode 0x900000004 = .ok (.rdstg 4) ∧ decode 0xA00000000 = .ok .hlen ∧ decode 0xB00000000 = .ok .plen ∧
  decode 0xC00000000 = .ok .slen ∧ decode 0xF12345678 = .error (.reservedOpcode 0xF)

/-- 30_encoding.md R53, 60_exceptions.md R122: a word spells no command exactly when its opcode is 0x0, 0xD, 0xE or 0xF;
then, whatever `arg` holds, an unfaulted block raises `IllegalCommand`, and on no other word does it. -/
def Obligations.ReservedWordsRaiseIllegalCommand : Prop :=
  ∀ w : CmdWord,
    ((∀ i, decode w ≠ .ok i) ↔ w.extractLsb' 32 4 ∈ [0x0, 0xD, 0xE, 0xF]) ∧
    (∀ (s : State) (es : List HostEvent), s.cfg.legal = true → s.fault = false → s.inbox = .command w :: es →
      (w.extractLsb' 32 4 ∈ [0x0, 0xD, 0xE, 0xF] →
        step s = .next { s with
          inbox := es, fault := true, cause := .illegalCommand,
          responses := s.responses ++ [.fault .illegalCommand] }) ∧
      (w.extractLsb' 32 4 ∉ [0x0, 0xD, 0xE, 0xF] →
        ∃ t r, step s = .next t ∧ t.responses = s.responses ++ [r] ∧ r ≠ .fault .illegalCommand ∧
          (t.fault = true → t.cause ≠ .illegalCommand)))

/-! ### The step -/

/-- 00_scope.md R7: a step accepts the word the host offers next and performs the command it spells. -/
def Obligations.StepRunsTheDecodedCommand : Prop :=
  ∀ (s : State) (w : CmdWord) (es : List HostEvent) (i : Instr),
    s.cfg.legal = true → s.inbox = .command w :: es → decode w = .ok i → step s = exec i { s with inbox := es }

/-- 60_exceptions.md R132: with nothing from the host the block does not change. -/
def Obligations.IdleBlockDoesNotChange : Prop :=
  ∀ s : State, s.cfg.legal = true → s.inbox = [] → step s = .next s

/-- 00_scope.md R5, R6, 93_implementation_defined.md U15: which parameters are a configuration of this hardware, and that
the block of any other gets no meaning. -/
def Obligations.IllegalConfigurationGetsNoMeaning : Prop :=
  (∀ c : Config, c.legal = true ↔
    1 ≤ c.wordBytes ∧ ∀ h p, c.hdrCap = .bytes h → c.pkdCap = .bytes p →
      4 * h + 4 ≤ 2 ^ (8 * c.wordBytes) - 1 ∧ c.wordBytes + p + h + 16 ≤ 2 ^ (8 * c.wordBytes) - 1) ∧
  (∀ s : State, s.cfg.legal = false → step s = .refused .illegalConfiguration)

/-- 10_state.md R25: every command answers a next state in every state, reachable or not; it changes neither the parameters
nor what the host has still to do. -/
def Obligations.EveryCommandCompletes : Prop :=
  ∀ (i : Instr) (s : State), ∃ t r, exec i s = .next t ∧ t.cfg = s.cfg ∧ t.inbox = s.inbox ∧
    t.responses = s.responses ++ [r]

/-! ### Reset -/

/-- 10_state.md R27: the state after reset; nothing is said of the dead storage. -/
def Obligations.ResetStateIsEmpty : Prop :=
  (∀ c : Config,
    (State.resetWith c).count = 0 ∧ (State.resetWith c).hlen = 0 ∧ (State.resetWith c).plen = 0 ∧
    (State.resetWith c).slen = 0 ∧ (State.resetWith c).fault = false ∧ (State.resetWith c).cause = .none ∧
    (State.resetWith c).footprint = c.wordBytes ∧
    (State.resetWith c).codec = { count := 0, headers := [], packed := [], staging := [] }) ∧
  (∃ c : Config, c.legal = true ∧ State.reset = State.resetWith c)

/-- 70_reset_and_hazards.md R140: the reset event gives the empty, unfaulted block in every state, the next word is then
performed like any other, and nothing else a step can do clears `FAULT`. -/
def Obligations.ResetEventEmptiesTheBlock : Prop :=
  (∀ (s : State) (es : List HostEvent), s.cfg.legal = true → s.inbox = .reset :: es →
    ∃ t, step s = .next t ∧ t.count = 0 ∧ t.hlen = 0 ∧ t.plen = 0 ∧ t.slen = 0 ∧ t.fault = false ∧ t.cause = .none ∧
      t.codec = { count := 0, headers := [], packed := [], staging := [] } ∧
      t.cfg = s.cfg ∧ t.inbox = es ∧ t.responses = s.responses ∧
      (∀ (w : CmdWord) (fs : List HostEvent), es = .command w :: fs →
        (∀ i : Instr, decode w = .ok i → step t = exec i { t with inbox := fs }) ∧
        ((∀ i : Instr, decode w ≠ .ok i) → step t = .next { t with
          inbox := fs, fault := true, cause := .illegalCommand,
          responses := t.responses ++ [.fault .illegalCommand] }))) ∧
  (∀ s t : State, (∀ es, s.inbox ≠ .reset :: es) → step s = .next t → s.fault = true → t.fault = true)

/-- 70_reset_and_hazards.md R142: `NEW` is refused by a faulted block and leaves the fault pair alone; reset works in every
state and clears it; with `FAULT = 0` both leave the empty codec state. -/
def Obligations.ResetAndNewCompared : Prop :=
  ∀ (s : State) (arg : Arg) (es : List HostEvent), s.cfg.legal = true →
    (∃ t, step { s with inbox := .reset :: es } = .next t ∧ t.fault = false ∧ t.cause = .none ∧
      t.codec = { count := 0, headers := [], packed := [], staging := [] }) ∧
    (s.fault = true → step { s with inbox := .command (0x1#4 ++ arg) :: es } =
      .next { s with inbox := es, responses := s.responses ++ [.fault s.cause] }) ∧
    (s.fault = false → ∃ t, step { s with inbox := .command (0x1#4 ++ arg) :: es } = .next t ∧
      t.fault = s.fault ∧ t.cause = s.cause ∧ t.responses = s.responses ++ [.ok] ∧
      t.codec = { count := 0, headers := [], packed := [], staging := [] })

/-! ### Soundness of states -/

/-- 10_state.md section 4 and 6: the state after reset is sound, whatever the parameters. The canonical form of the
memories is the model's own. -/
def Obligations.ResetStateIsSound : Prop := ∀ c : Config, Sound (State.resetWith c)

/-- 10_state.md section 4: every step keeps a sound state sound: the count, the packed length, minimal widths, the lengths
within the capacities, the fault pair; and the canonical form of the memories, which is the model's own. -/
def Obligations.EveryStepKeepsSoundness : Prop :=
  ∀ s t : State, Sound s → step s = .next t → Sound t

/-- 10_state.md R21: the count invariant alone is kept by every step. -/
def Obligations.EveryStepKeepsTheCount : Prop :=
  (∀ c : Config, (State.resetWith c).count = 4 * (State.resetWith c).hlen + (State.resetWith c).slen.val) ∧
  (∀ s t : State, s.count = 4 * s.hlen + s.slen.val → step s = .next t → t.count = 4 * t.hlen + t.slen.val)

/-- 10_state.md R24: what a sound state implies. -/
def Obligations.SoundStateConsequences : Prop :=
  ∀ s : State, Sound s →
    (4 * s.hlen ≤ s.plen ∧ s.plen ≤ 16 * s.hlen) ∧
    (1 ≤ s.count → 1 ≤ s.slen.val ∧ s.slen.val ≤ 4 ∧ s.slen.val = (s.count - 1) % 4 + 1 ∧ s.hlen = (s.count - 1) / 4) ∧
    (s.count = 0 → s.slen.val = 0 ∧ s.hlen = 0) ∧
    (widthsOf s.headers).sum = s.plen ∧
    (s.fault = false → ∃ q, exec .decode s = .next { s with responses := s.responses ++ [.values q] })

/-- 00_scope.md R6, 41_encoder.md R84, 43_queries.md R107: in a sound state of a legal finite configuration the count and
the footprint fit `CNT_W` bits. -/
def Obligations.SizesFitTheWord : Prop :=
  ∀ (s : State) (h p : Nat), Sound s → s.cfg.legal = true → s.cfg.hdrCap = .bytes h → s.cfg.pkdCap = .bytes p →
    s.count ≤ 2 ^ (8 * s.cfg.wordBytes) - 1 ∧
    s.cfg.wordBytes + s.plen + s.hlen + 4 * s.slen.val ≤ 2 ^ (8 * s.cfg.wordBytes) - 1

/-! ### Faults -/

/-- 60_exceptions.md R126: a faulted block answers every word, legal or reserved, with its cause, and changes nothing. -/
def Obligations.FaultedBlockAnswersItsCause : Prop :=
  (∀ (s : State) (i : Instr), s.fault = true →
    exec i s = .next { s with responses := s.responses ++ [.fault s.cause] }) ∧
  (∀ (s : State) (w : CmdWord) (es : List HostEvent), s.cfg.legal = true → s.fault = true →
    s.inbox = .command w :: es →
    step s = .next { s with inbox := es, responses := s.responses ++ [.fault s.cause] })

/-- 60_exceptions.md R127: only reset leaves a fault, and it empties the codec state; a second fault is not taken. -/
def Obligations.OnlyResetLeavesAFault : Prop :=
  ∀ s t : State, s.fault = true → step s = .next t →
    (t.fault = true ∧ t.cause = s.cause ∧ t.codec = s.codec ∧ ∀ es, s.inbox ≠ .reset :: es) ∨
    ((∃ es, s.inbox = .reset :: es) ∧ t.fault = false ∧ t.cause = .none ∧
      t.codec = { count := 0, headers := [], packed := [], staging := [] })

/-- 60_exceptions.md R124: a command that faults changes `FAULT` and `CAUSE` and nothing else, its response is the fault
alone, the pins show it, and no command after it has any effect. -/
def Obligations.FaultEntryChangesOnlyTheStatus : Prop :=
  ∀ (s t : State) (w : CmdWord) (es : List HostEvent), s.inbox = .command w :: es → s.fault = false →
    step s = .next t → t.fault = true →
    ∃ c, c ≠ .none ∧ t.pins = { fault := true, cause := c.code } ∧
      t = { s with inbox := es, fault := true, cause := c, responses := s.responses ++ [.fault c] } ∧
      ∀ (w' : CmdWord) (fs : List HostEvent), step { t with inbox := .command w' :: fs } =
        .next { t with inbox := fs, responses := t.responses ++ [.fault c] }

/-- 60_exceptions.md R120 and R125: which word raises which code, and when; the codes 5, 6 and 7 never appear. -/
def Obligations.EachCauseHasItsCode : Prop :=
  ∀ (s : State) (w : CmdWord) (es : List HostEvent), s.cfg.legal = true → s.fault = false → s.cause = .none →
    s.inbox = .command w :: es →
    ∃ t, step s = .next t ∧ (t.fault = false ↔ t.cause.code = 0) ∧ t.cause.code.toNat ≤ 4 ∧
      (t.cause.code = 1 ↔ decode w = .ok .decode ∧ s.plen < (widthsOf s.headers).sum) ∧
      (t.cause.code = 2 ↔ s.slen.val = 4 ∧ (∃ x, decode w = .ok (.add x)) ∧
        ((∃ h, s.cfg.hdrCap = .bytes h ∧ h < s.hlen + 1) ∨
          ∃ p, s.cfg.pkdCap = .bytes p ∧
            p < s.plen + (width s.stg.r0 + width s.stg.r1 + width s.stg.r2 + width s.stg.r3))) ∧
      (t.cause.code = 3 ↔ w.extractLsb' 32 4 ∈ [0x0, 0xD, 0xE, 0xF]) ∧
      (t.cause.code = 4 ↔ (∃ a, decode w = .ok (.rdhdr a) ∧ s.hlen ≤ a.toNat) ∨
        (∃ a, decode w = .ok (.rdpkd a) ∧ s.plen ≤ a.toNat) ∨
        (∃ a, decode w = .ok (.rdstg a) ∧ s.slen.val ≤ a.toNat))

/-- 60_exceptions.md section 1: with both capacities `INF` and indices kept below the lengths, no command faults in a sound
state. -/
def Obligations.CorrectUseNeverFaults : Prop :=
  ∀ (s : State) (i : Instr), Sound s → s.fault = false → s.cfg.hdrCap = .inf → s.cfg.pkdCap = .inf →
    (∀ a, i = .rdhdr a → a.toNat < s.hlen) → (∀ a, i = .rdpkd a → a.toNat < s.plen) →
    (∀ a, i = .rdstg a → a.toNat < s.slen.val) →
    ∃ t, exec i s = .next t ∧ t.fault = false ∧ t.cause = .none

/-- 10_state.md R16: the bits of `STATUS`, and the pins that follow it. -/
def Obligations.StatusBitsAreFaultAndCause : Prop :=
  ∀ s : State, s.status.getLsbD 3 = s.fault ∧ s.status.extractLsb' 0 3 = s.cause.code ∧
    s.pins = { fault := s.status.getLsbD 3, cause := s.status.extractLsb' 0 3 }

/-! ### The encoder -/

/-- 41_encoder.md R75: `NEW`. -/
def Obligations.NewEmptiesTheCodec : Prop :=
  (∀ arg : Arg, decode (0x1#4 ++ arg) = .ok .new) ∧
  (∀ s : State, s.fault = true → exec .new s = .next { s with responses := s.responses ++ [.fault s.cause] }) ∧
  (∀ s : State, s.fault = false →
    ∃ t, exec .new s = .next t ∧
      t = { s with count := 0, hlen := 0, plen := 0, slen := 0, responses := s.responses ++ [.ok] } ∧
      t.codec = { count := 0, headers := [], packed := [], staging := [] })

/-- 41_encoder.md section 3: an `ADD` with fewer than four values staged writes one register, and no memory. -/
def Obligations.AddStagesItsValue : Prop :=
  ∀ (s : State) (x : Value), s.fault = false → s.slen.val < 4 →
    ∃ t, exec (.add x) s = .next t ∧ t.count = s.count + 1 ∧ t.slen.val = s.slen.val + 1 ∧
      t.stg.reg s.slen.val = x ∧ (∀ j, j < 4 → j ≠ s.slen.val → t.stg.reg j = s.stg.reg j) ∧
      t.staging = s.staging ++ [x] ∧
      t.hlen = s.hlen ∧ t.plen = s.plen ∧ (∀ sp a, t.readByte sp a = s.readByte sp a) ∧
      t.fault = s.fault ∧ t.cause = s.cause ∧ t.cfg = s.cfg ∧ t.inbox = s.inbox ∧
      t.responses = s.responses ++ [.ok]

/-- 41_encoder.md section 2 and 3: an `ADD` with four values staged, where the flush fits: the header byte at `HLEN`, the
packed bytes from `PLEN` up, and every other byte as before; then the value is staged in `S[0]`. -/
def Obligations.AddFlushesTheGroupFirst : Prop :=
  ∀ (s : State) (x : Value), MemInv s → s.fault = false → s.slen.val = 4 →
    capAdmits s.cfg.hdrCap (s.hlen + 1) = true →
    capAdmits s.cfg.pkdCap (s.plen + (width s.stg.r0 + width s.stg.r1 + width s.stg.r2 + width s.stg.r3)) = true →
    ∃ t, exec (.add x) s = .next t ∧ t.count = s.count + 1 ∧ t.slen.val = 1 ∧
      t.stg = { s.stg with r0 := x } ∧ t.staging = [x] ∧
      t.hlen = s.hlen + 1 ∧
      t.plen = s.plen + (width s.stg.r0 + width s.stg.r1 + width s.stg.r2 + width s.stg.r3) ∧
      t.headers = s.headers ++ [hdrByte (width s.stg.r0) (width s.stg.r1) (width s.stg.r2) (width s.stg.r3)] ∧
      t.packed = s.packed ++ (be s.stg.r0 (width s.stg.r0) ++ be s.stg.r1 (width s.stg.r1) ++
        be s.stg.r2 (width s.stg.r2) ++ be s.stg.r3 (width s.stg.r3)) ∧
      (∀ a, a ≠ s.hlen → t.readByte .hdr a = s.readByte .hdr a) ∧
      (∀ a, a < s.plen ∨ t.plen ≤ a → t.readByte .pkd a = s.readByte .pkd a) ∧
      t.fault = s.fault ∧ t.cause = s.cause ∧ t.cfg = s.cfg ∧ t.inbox = s.inbox ∧
      t.responses = s.responses ++ [.ok]

/-- 41_encoder.md R80, 60_exceptions.md R121: with four values staged and a capacity too small, `ADD` raises
`CapacityOverflow` and changes nothing else; otherwise it does not fault. -/
def Obligations.AddRaisesCapacityOverflow : Prop :=
  ∀ (s : State) (x : Value), s.fault = false →
    let need := width s.stg.r0 + width s.stg.r1 + width s.stg.r2 + width s.stg.r3
    let full := (∃ h, s.cfg.hdrCap = .bytes h ∧ h < s.hlen + 1) ∨ (∃ p, s.cfg.pkdCap = .bytes p ∧ p < s.plen + need)
    (s.slen.val = 4 ∧ full → exec (.add x) s = .next { s with
      fault := true, cause := .capacityOverflow, responses := s.responses ++ [.fault .capacityOverflow] }) ∧
    (¬ (s.slen.val = 4 ∧ full) → ∃ t, exec (.add x) s = .next t ∧ t.fault = false ∧ t.cause = s.cause ∧
      t.responses = s.responses ++ [.ok])

/-- 41_encoder.md R79: with both capacities `INF`, `ADD` never faults and its response carries nothing. -/
def Obligations.UnboundedAddNeverFaults : Prop :=
  ∀ (s : State) (x : Value), s.fault = false → s.cfg.hdrCap = .inf → s.cfg.pkdCap = .inf →
    ∃ t, exec (.add x) s = .next t ∧ t.fault = false ∧ t.count = s.count + 1 ∧ t.responses = s.responses ++ [.ok]

/-- 41_encoder.md R83: the state after `N` adds from an empty block, with any commands but `NEW` between them. -/
def Obligations.StateAfterAdds : Prop :=
  ∀ (s t : State) (is : List Instr), MemInv s → s.fault = false →
    s.count = 0 → s.hlen = 0 → s.plen = 0 → s.slen.val = 0 → (∀ i ∈ is, i ≠ .new) →
    runInstrs is s = .next t → t.fault = false →
    let vs := addedValues is
    let n := vs.length
    let g := (n - 1) / 4
    let v := fun k => vs.getD k 0
    t.count = n ∧ t.hlen = g ∧
    t.headers = (List.range g).map (fun k =>
      hdrByte (width (v (4 * k))) (width (v (4 * k + 1))) (width (v (4 * k + 2))) (width (v (4 * k + 3)))) ∧
    t.packed = (vs.take (4 * g)).flatMap (fun x => be x (width x)) ∧ t.plen = t.packed.length ∧
    t.slen.val = n - 4 * g ∧ t.staging = vs.drop (4 * g)

/-- 20_memory.md R31: a byte changes only when a flush makes it live; a live byte stays what it is until `NEW` or reset. -/
def Obligations.LiveBytesNeverChange : Prop :=
  ∀ (s t : State) (i : Instr), MemInv s → exec i s = .next t →
    (∀ a, t.readByte .hdr a ≠ s.readByte .hdr a → s.hlen ≤ a ∧ a < t.hlen) ∧
    (∀ a, t.readByte .pkd a ≠ s.readByte .pkd a → s.plen ≤ a ∧ a < t.plen) ∧
    (i ≠ .new → s.hlen ≤ t.hlen ∧ s.plen ≤ t.plen ∧
      (∀ a, a < s.hlen → t.headers[a]? = s.headers[a]?) ∧ (∀ a, a < s.plen → t.packed[a]? = s.packed[a]?))

/-! ### The decoder -/

/-- 42_decoder.md section 1: the walk. It fails exactly when the widths pass the end of the packed bytes; otherwise value `k`
is read from the bytes after the first `k` values, `4` values for each header byte, and the staged values follow. -/
def Obligations.DecodeFunctionIsTheWalk : Prop :=
  ∀ (headers packed : List Byte) (staging : List Value),
    let ws := headers.flatMap (fun h => [field h 0 + 1, field h 1 + 1, field h 2 + 1, field h 3 + 1])
    (dec headers packed staging = none ↔ packed.length < ws.sum) ∧
    (∀ q, dec headers packed staging = some q →
      q.length = 4 * headers.length + staging.length ∧ q.drop (4 * headers.length) = staging ∧
      ∀ (k w : Nat), ws[k]? = some w → q[k]? = some (unbe ((packed.drop (ws.take k).sum).take w)))

/-- 42_decoder.md R90: `DECODE`; its own fault needs an unreachable state. -/
def Obligations.DecodeAnswersEverything : Prop :=
  (∀ arg : Arg, decode (0x3#4 ++ arg) = .ok .decode) ∧
  (∀ s : State, s.fault = true → exec .decode s = .next { s with responses := s.responses ++ [.fault s.cause] }) ∧
  (∀ s : State, s.fault = false → (widthsOf s.headers).sum ≤ s.plen →
    ∃ q, dec s.headers s.packed s.staging = some q ∧
      exec .decode s = .next { s with responses := s.responses ++ [.values q] }) ∧
  (∀ s : State, s.fault = false → s.plen < (widthsOf s.headers).sum →
    exec .decode s = .next { s with
      fault := true, cause := .decodeOutOfRange, responses := s.responses ++ [.fault .decodeOutOfRange] }) ∧
  (∀ s : State, Sound s → (widthsOf s.headers).sum ≤ s.plen)

/-- 42_decoder.md R96: the length of the result. -/
def Obligations.DecodeAnswersCountValues : Prop :=
  ∀ (s : State) (q : List Value), s.fault = false →
    exec .decode s = .next { s with responses := s.responses ++ [.values q] } →
    q.length = 4 * s.hlen + s.slen.val ∧ (s.count = 4 * s.hlen + s.slen.val → q.length = s.count)

/-- 42_decoder.md R94: `DECODE` reads and does not write; a second `DECODE`, with any unfaulted commands but `NEW` and `ADD`
between, gives the same response; an `ADD` after them makes the sequence longer by its value. -/
def Obligations.DecodeDoesNotConsume : Prop :=
  ∀ (s t u : State) (q : List Value) (is : List Instr), s.fault = false → exec .decode s = .next t →
    t.responses = s.responses ++ [.values q] → (∀ i ∈ is, ReadOnly i) → runInstrs is t = .next u → u.fault = false →
    t = { s with responses := s.responses ++ [.values q] } ∧
    exec .decode u = .next { u with responses := u.responses ++ [.values q] } ∧
    (∀ (x : Value) (v : State), Sound s → exec (.add x) u = .next v → v.fault = false →
      exec .decode v = .next { v with responses := v.responses ++ [.values (q ++ [x])] })

/-- 42_decoder.md R97: the round trip for any sequence of values, after `NEW`, from any empty state, whatever its dead storage
holds, right after a reset event in any state, faulted or not, and from the state after reset; with both capacities `INF` no
such run faults. -/
def Obligations.RoundTrip : Prop :=
  (∀ (s t : State) (vs : List Value), MemInv s → s.fault = false → runInstrs (build vs) s = .next t → t.fault = false →
    exec .decode t = .next { t with responses := t.responses ++ [.values vs] }) ∧
  (∀ (s t : State) (vs : List Value), MemInv s → s.count = 0 → s.hlen = 0 → s.plen = 0 → s.slen.val = 0 →
    runInstrs (vs.map .add) s = .next t → t.fault = false →
    exec .decode t = .next { t with responses := t.responses ++ [.values vs] }) ∧
  (∀ (r s t : State) (es : List HostEvent) (vs : List Value), MemInv r → r.inbox = .reset :: es → step r = .next s →
    runInstrs (vs.map .add) s = .next t → t.fault = false →
    exec .decode t = .next { t with responses := t.responses ++ [.values vs] }) ∧
  (∀ (c : Config) (t : State) (vs : List Value), runInstrs (vs.map .add) (State.resetWith c) = .next t →
    t.fault = false → exec .decode t = .next { t with responses := t.responses ++ [.values vs] }) ∧
  (∀ (s : State) (vs : List Value), s.fault = false → s.cfg.hdrCap = .inf → s.cfg.pkdCap = .inf →
    (∃ t, runInstrs (build vs) s = .next t ∧ t.fault = false) ∧
    (∃ t, runInstrs (vs.map .add) s = .next t ∧ t.fault = false))

/-! ### The two views -/

/-- 10_state.md section 7: the registers and memories do what the abstract codec state does, for every word the host may
send. -/
def Obligations.RegistersRefineTheAbstractCodec : Prop :=
  ∀ (s : State) (w : CmdWord) (es : List HostEvent), s.cfg.legal = true → MemInv s → s.inbox = .command w :: es →
    ∃ t r, step s = .next t ∧ t.inbox = es ∧ t.responses = s.responses ++ [r] ∧
      s.view.performWord s.cfg w = (t.view, r)

/-- 10_state.md R28: two register states with the same abstract state and the same fault pair give the same response to every
command and go to states with the same abstract state: dead storage is never read. -/
def Obligations.DeadStorageIsNeverRead : Prop :=
  ∀ (s s' : State) (i : Instr), MemInv s → MemInv s' → s.cfg = s'.cfg → s.view = s'.view →
    ∃ t t' r, exec i s = .next t ∧ exec i s' = .next t' ∧ t.view = t'.view ∧
      t.responses = s.responses ++ [r] ∧ t'.responses = s'.responses ++ [r]

/-- 10_state.md section 5, 43_queries.md section 3: no command but `NEW` and `ADD` changes the codec state: registers, staging
registers and every byte of memory stay, and so does the fault pair, also of a block that had faulted, unless the command
faults. -/
def Obligations.OnlyNewAndAddChangeTheCodec : Prop :=
  ∀ (s t : State) (i : Instr), i ≠ .new → (∀ x, i ≠ .add x) → exec i s = .next t →
    t.count = s.count ∧ t.hlen = s.hlen ∧ t.plen = s.plen ∧ t.slen = s.slen ∧ t.stg = s.stg ∧
    (∀ sp a, t.readByte sp a = s.readByte sp a) ∧ t.cfg = s.cfg ∧ t.inbox = s.inbox ∧
    (t.fault = false → s.fault = false ∧ t.cause = s.cause) ∧
    (s.fault = true → t.fault = true ∧ t.cause = s.cause) ∧
    (t.fault = true → s.fault = true ∨ ∃ c, c ≠ .none ∧ t.cause = c ∧ t.responses = s.responses ++ [.fault c])

/-! ### Data encodings -/

/-- 40_width.md R70, R71: the thresholds of the width and its properties. -/
def Obligations.WidthIsTheLeastByteCount : Prop :=
  (∀ x : Value,
    width x = (if x.toNat ≤ 0xFF then 1 else if x.toNat ≤ 0xFFFF then 2 else if x.toNat ≤ 0xFFFFFF then 3 else 4) ∧
    1 ≤ width x ∧ width x ≤ 4 ∧ x.toNat < 2 ^ (8 * width x) ∧
    (∀ w, 1 ≤ w → x.toNat < 2 ^ (8 * w) → width x ≤ w) ∧
    unbe (be x (width x)) = x ∧
    (0x100 ≤ x.toNat → ∀ b, (be x (width x)).head? = some b → b ≠ 0) ∧
    width x = (if x.extractLsb' 24 8 ≠ 0 then 4 else if x.extractLsb' 16 8 ≠ 0 then 3
      else if x.extractLsb' 8 8 ≠ 0 then 2 else 1)) ∧
  (∀ x y : Value, x.toNat ≤ y.toNat → width x ≤ width y) ∧
  width 0 = 1 ∧ width 0xFF = 1 ∧ width 0x100 = 2 ∧ width 0xFFFF = 2 ∧ width 0x10000 = 3 ∧ width 0xFFFFFF = 3 ∧
  width 0x1000000 = 4 ∧ width 0xFFFFFFFF = 4

/-- 30_encoding.md R56, R57: the fields of a header byte are its widths less one, position 0 in bits 7:6, and taking a header
apart and putting it together are inverse, for every byte. -/
def Obligations.HeaderFieldsAndAssemblyAreInverse : Prop :=
  (∀ w0 w1 w2 w3 : Nat, 1 ≤ w0 → w0 ≤ 4 → 1 ≤ w1 → w1 ≤ 4 → 1 ≤ w2 → w2 ≤ 4 → 1 ≤ w3 → w3 ≤ 4 →
    (hdrByte w0 w1 w2 w3).toNat = (w0 - 1) * 64 + (w1 - 1) * 16 + (w2 - 1) * 4 + (w3 - 1) ∧
    field (hdrByte w0 w1 w2 w3) 0 + 1 = w0 ∧ field (hdrByte w0 w1 w2 w3) 1 + 1 = w1 ∧
    field (hdrByte w0 w1 w2 w3) 2 + 1 = w2 ∧ field (hdrByte w0 w1 w2 w3) 3 + 1 = w3) ∧
  (∀ h : Byte,
    field h 0 = (h.extractLsb' 6 2).toNat ∧ field h 1 = (h.extractLsb' 4 2).toNat ∧
    field h 2 = (h.extractLsb' 2 2).toNat ∧ field h 3 = (h.extractLsb' 0 2).toNat ∧
    (∀ i, i < 4 → field h i ≤ 3) ∧
    hdrByte (field h 0 + 1) (field h 1 + 1) (field h 2 + 1) (field h 3 + 1) = h)

/-- 30_encoding.md R58, R59: the bytes of `be`, most significant first, and that `be` and `unbe` are inverse. -/
def Obligations.PackedBytesAreBigEndian : Prop :=
  (∀ x : Value,
    be x 1 = [x.extractLsb' 0 8] ∧ be x 2 = [x.extractLsb' 8 8, x.extractLsb' 0 8] ∧
    be x 3 = [x.extractLsb' 16 8, x.extractLsb' 8 8, x.extractLsb' 0 8] ∧
    be x 4 = [x.extractLsb' 24 8, x.extractLsb' 16 8, x.extractLsb' 8 8, x.extractLsb' 0 8]) ∧
  (∀ (x : Value) (w : Nat), 1 ≤ w → w ≤ 4 → x.toNat < 2 ^ (8 * w) → unbe (be x w) = x) ∧
  (∀ bytes : List Byte, 1 ≤ bytes.length → bytes.length ≤ 4 →
    be (unbe bytes) bytes.length = bytes ∧ (unbe bytes).toNat < 2 ^ (8 * bytes.length) ∧
    (unbe bytes).toNat =
      ((List.range bytes.length).map fun j => (bytes.getD j 0).toNat * 2 ^ (8 * (bytes.length - 1 - j))).sum)

/-! ### The queries -/

/-- 40_width.md R72: `WIDTH x`. -/
def Obligations.WidthCommandAnswersTheWidth : Prop :=
  (∀ x : Value, decode (0x6#4 ++ x) = .ok (.width x)) ∧
  (∀ (s : State) (x : Value), s.fault = true →
    exec (.width x) s = .next { s with responses := s.responses ++ [.fault s.cause] }) ∧
  (∀ (s : State) (x : Value), s.fault = false →
    exec (.width x) s = .next { s with responses := s.responses ++ [.word (width x)] })

/-- 43_queries.md R105: `COUNT`. -/
def Obligations.CountCommandAnswersTheCount : Prop :=
  (∀ arg : Arg, decode (0x4#4 ++ arg) = .ok .count) ∧
  (∀ s : State, s.fault = true → exec .count s = .next { s with responses := s.responses ++ [.fault s.cause] }) ∧
  (∀ s : State, s.fault = false → exec .count s = .next { s with responses := s.responses ++ [.word s.count] })

/-- 10_state.md R17, 43_queries.md R106: `FOOTPRINT`. -/
def Obligations.FootprintCommandAnswersTheFootprint : Prop :=
  (∀ arg : Arg, decode (0x5#4 ++ arg) = .ok .footprint) ∧
  (∀ s : State, s.fault = true → exec .footprint s = .next { s with responses := s.responses ++ [.fault s.cause] }) ∧
  (∀ s : State, s.fault = false → exec .footprint s = .next { s with
    responses := s.responses ++ [.word (s.cfg.wordBytes + s.plen + s.hlen + 4 * s.slen.val)] })

/-- 43_queries.md R108: `HLEN`. -/
def Obligations.HlenCommandAnswersTheLength : Prop :=
  (∀ arg : Arg, decode (0xA#4 ++ arg) = .ok .hlen) ∧
  (∀ s : State, s.fault = true → exec .hlen s = .next { s with responses := s.responses ++ [.fault s.cause] }) ∧
  (∀ s : State, s.fault = false → exec .hlen s = .next { s with responses := s.responses ++ [.word s.hlen] })

/-- 43_queries.md R109: `PLEN`. -/
def Obligations.PlenCommandAnswersTheLength : Prop :=
  (∀ arg : Arg, decode (0xB#4 ++ arg) = .ok .plen) ∧
  (∀ s : State, s.fault = true → exec .plen s = .next { s with responses := s.responses ++ [.fault s.cause] }) ∧
  (∀ s : State, s.fault = false → exec .plen s = .next { s with responses := s.responses ++ [.word s.plen] })

/-- 43_queries.md R110: `SLEN`. -/
def Obligations.SlenCommandAnswersTheLength : Prop :=
  (∀ arg : Arg, decode (0xC#4 ++ arg) = .ok .slen) ∧
  (∀ s : State, s.fault = true → exec .slen s = .next { s with responses := s.responses ++ [.fault s.cause] }) ∧
  (∀ s : State, s.fault = false →
    exec .slen s = .next { s with responses := s.responses ++ [.word s.slen.val] } ∧ s.slen.val ≤ 4)

/-- 43_queries.md R111: `RDHDR a`. -/
def Obligations.RdhdrReadsOneLiveByte : Prop :=
  (∀ a : Arg, decode (0x7#4 ++ a) = .ok (.rdhdr a)) ∧
  (∀ (s : State) (a : Arg), s.fault = true →
    exec (.rdhdr a) s = .next { s with responses := s.responses ++ [.fault s.cause] }) ∧
  (∀ (s : State) (a : Arg), s.fault = false → s.hlen ≤ a.toNat →
    exec (.rdhdr a) s = .next { s with
      fault := true, cause := .indexOutOfRange, responses := s.responses ++ [.fault .indexOutOfRange] }) ∧
  (∀ (s : State) (a : Arg), s.fault = false → a.toNat < s.hlen →
    ∃ b : Byte, s.headers[a.toNat]? = some b ∧ b = s.readByte .hdr a.toNat ∧
      exec (.rdhdr a) s = .next { s with responses := s.responses ++ [.word b.toNat] })

/-- 43_queries.md R112: `RDPKD a`. -/
def Obligations.RdpkdReadsOneLiveByte : Prop :=
  (∀ a : Arg, decode (0x8#4 ++ a) = .ok (.rdpkd a)) ∧
  (∀ (s : State) (a : Arg), s.fault = true →
    exec (.rdpkd a) s = .next { s with responses := s.responses ++ [.fault s.cause] }) ∧
  (∀ (s : State) (a : Arg), s.fault = false → s.plen ≤ a.toNat →
    exec (.rdpkd a) s = .next { s with
      fault := true, cause := .indexOutOfRange, responses := s.responses ++ [.fault .indexOutOfRange] }) ∧
  (∀ (s : State) (a : Arg), s.fault = false → a.toNat < s.plen →
    ∃ b : Byte, s.packed[a.toNat]? = some b ∧ b = s.readByte .pkd a.toNat ∧
      exec (.rdpkd a) s = .next { s with responses := s.responses ++ [.word b.toNat] })

/-- 43_queries.md R113: `RDSTG i`. -/
def Obligations.RdstgReadsOneStagedValue : Prop :=
  (∀ i : Arg, decode (0x9#4 ++ i) = .ok (.rdstg i)) ∧
  (∀ (s : State) (i : Arg), s.fault = true →
    exec (.rdstg i) s = .next { s with responses := s.responses ++ [.fault s.cause] }) ∧
  (∀ (s : State) (i : Arg), s.fault = false → s.slen.val ≤ i.toNat →
    exec (.rdstg i) s = .next { s with
      fault := true, cause := .indexOutOfRange, responses := s.responses ++ [.fault .indexOutOfRange] }) ∧
  (∀ (s : State) (i : Arg), s.fault = false → i.toNat < s.slen.val →
    ∃ v : Value, s.staging[i.toNat]? = some v ∧ v = s.stg.reg i.toNat ∧
      exec (.rdstg i) s = .next { s with responses := s.responses ++ [.word v.toNat] })

/-! ### Responses, wires and listings -/

/-- 30_encoding.md R62: one response to a command word, of the shape the command gives, in the order of the commands. -/
def Obligations.OneResponseOfItsShape : Prop :=
  ∀ (s : State) (w : CmdWord) (es : List HostEvent), s.cfg.legal = true → s.inbox = .command w :: es →
    ∃ t r, step s = .next t ∧ t.responses = s.responses ++ [r] ∧
      (∀ c, r = .fault c → t.fault = true ∧ c = t.cause) ∧ (t.fault = true → ∃ c, r = .fault c) ∧
      (r = .ok → decode w = .ok .new ∨ ∃ x, decode w = .ok (.add x)) ∧
      (∀ q, r = .values q → decode w = .ok .decode) ∧
      (∀ n, r = .word n →
        decode w = .ok .count ∨ decode w = .ok .footprint ∨ decode w = .ok .hlen ∨ decode w = .ok .plen ∨
        decode w = .ok .slen ∨ (∃ x, decode w = .ok (.width x) ∧ 1 ≤ n ∧ n ≤ 4) ∨
        (∃ a, decode w = .ok (.rdhdr a) ∧ n < 2 ^ 8) ∨ (∃ a, decode w = .ok (.rdpkd a) ∧ n < 2 ^ 8) ∨
        (∃ a, decode w = .ok (.rdstg a) ∧ n < 2 ^ 32))

/-- 30_encoding.md R63: the beats of a response; every response ends with its one beat with `last = 1`. -/
def Obligations.EveryResponseEndsWithItsLastBeat : Prop :=
  Response.beats .ok = [{ kind := .ok, last := true, data := 0 }] ∧
  (∀ n, Response.beats (.word n) = [{ kind := .word, last := true, data := n }]) ∧
  (∀ c : Cause, Response.beats (.fault c) = [{ kind := .fault, last := true, data := c.code.toNat }]) ∧
  (∀ q : List Value, (Response.beats (.values q)).length = q.length + 1 ∧
    (∀ (k : Nat) (v : Value), q[k]? = some v →
      (Response.beats (.values q))[k]? = some (Beat.mk .value false v.toNat)) ∧
    (Response.beats (.values q)).getLast? = some (Beat.mk .ok true 0)) ∧
  (∀ r : Response, ∃ bs b, r.beats = bs ++ [b] ∧ b.last = true ∧ b.kind ≠ .value ∧
    ∀ x ∈ bs, x.last = false ∧ x.kind = .value)

/-- 30_encoding.md section 4, 70_reset_and_hazards.md section 1 and 3: no command is accepted, and no reset is given a meaning,
while a beat of the present response is not taken; an accepted command offers exactly its response's beats; with no beat left
a reset leaves the empty, unfaulted block with nothing offered; and taking a beat leaves the rest and the block as it is. -/
def Obligations.ChannelWaitsForTheLastBeat : Prop :=
  (∀ (p : Wires) (w : CmdWord), p.offered ≠ [] → p.accept w = none ∧ p.assertReset = none) ∧
  (∀ (p : Wires) (w : CmdWord), p.offered = [] →
    ∃ t r, p.accept w = some { block := t, offered := Response.beats r } ∧
      t.responses = p.block.responses ++ [r] ∧ runWord w p.block = .next t) ∧
  (∀ p : Wires, p.offered = [] →
    ∃ t, p.assertReset = some { block := t, offered := [] } ∧
      t.count = 0 ∧ t.hlen = 0 ∧ t.plen = 0 ∧ t.slen = 0 ∧ t.fault = false ∧ t.cause = .none ∧
      t.codec = { count := 0, headers := [], packed := [], staging := [] } ∧
      t.cfg = p.block.cfg ∧ t.inbox = p.block.inbox ∧ t.responses = p.block.responses ∧
      (p.block.cfg.legal = true → step { p.block with inbox := .reset :: p.block.inbox } = .next t)) ∧
  (∀ p p' : Wires, ∀ b, p.take = some (b, p') ↔ p.offered = b :: p'.offered ∧ p'.block = p.block)

/-- 30_encoding.md section 5: each line form of a listing and its command words, written out: the seven mnemonics without an
operand, the five with one, the range of the operand, `BUILD` with any number of operands, and a comment. Letters of
hexadecimal digits in either case are the model's choice (log entry 9). -/
def Obligations.ListingLinesAssemble : Prop :=
  (assembleLine ['N', 'E', 'W'] = some [0x100000000] ∧
    assembleLine ['D', 'E', 'C', 'O', 'D', 'E'] = some [0x300000000] ∧
    assembleLine ['C', 'O', 'U', 'N', 'T'] = some [0x400000000] ∧
    assembleLine ['F', 'O', 'O', 'T', 'P', 'R', 'I', 'N', 'T'] = some [0x500000000] ∧
    assembleLine ['H', 'L', 'E', 'N'] = some [0xA00000000] ∧
    assembleLine ['P', 'L', 'E', 'N'] = some [0xB00000000] ∧
    assembleLine ['S', 'L', 'E', 'N'] = some [0xC00000000]) ∧
  (∀ (name : List Char) (op : Opcode),
    (name, op) ∈ [(['A', 'D', 'D'], 0x2#4), (['W', 'I', 'D', 'T', 'H'], 0x6#4), (['R', 'D', 'H', 'D', 'R'], 0x7#4),
      (['R', 'D', 'P', 'K', 'D'], 0x8#4), (['R', 'D', 'S', 'T', 'G'], 0x9#4)] →
    ∀ (cs : List Char) (n : Nat), SpellsOperand cs n →
      assembleLine (name ++ ' ' :: cs) = if n < 2 ^ 32 then some [op ++ BitVec.ofNat 32 n] else none) ∧
  assembleLine ['B', 'U', 'I', 'L', 'D'] = some [0x100000000] ∧
  (∀ ps : List (List Char × Nat), ps ≠ [] → (∀ p ∈ ps, SpellsOperand p.1 p.2 ∧ p.2 < 2 ^ 32) →
    assembleLine (['B', 'U', 'I', 'L', 'D', ' '] ++ [',', ' '].intercalate (ps.map Prod.fst)) =
      some (0x100000000 :: ps.map fun p => 0x2#4 ++ BitVec.ofNat 32 p.2)) ∧
  (∀ line comment : List Char, assembleLine (line ++ ';' :: comment) = assembleLine line)
end

