-- ==== Sys2Proof/Laws/State.lean ====
section
/-! SUPPORT. What each update of State does to each field: all true by rfl, so that no later proof unfolds an update. -/

namespace Sys2Proof.Machine

/-! ### State.respond -/

@[simp] theorem State.respond_cfg (r : Response) (s : State) : (State.respond r s).cfg = s.cfg := rfl
@[simp] theorem State.respond_count (r : Response) (s : State) : (State.respond r s).count = s.count := rfl
@[simp] theorem State.respond_hlen (r : Response) (s : State) : (State.respond r s).hlen = s.hlen := rfl
@[simp] theorem State.respond_plen (r : Response) (s : State) : (State.respond r s).plen = s.plen := rfl
@[simp] theorem State.respond_slen (r : Response) (s : State) : (State.respond r s).slen = s.slen := rfl
@[simp] theorem State.respond_stg (r : Response) (s : State) : (State.respond r s).stg = s.stg := rfl
@[simp] theorem State.respond_hdr (r : Response) (s : State) : (State.respond r s).hdr = s.hdr := rfl
@[simp] theorem State.respond_pkd (r : Response) (s : State) : (State.respond r s).pkd = s.pkd := rfl
@[simp] theorem State.respond_fault (r : Response) (s : State) : (State.respond r s).fault = s.fault := rfl
@[simp] theorem State.respond_cause (r : Response) (s : State) : (State.respond r s).cause = s.cause := rfl
@[simp] theorem State.respond_inbox (r : Response) (s : State) : (State.respond r s).inbox = s.inbox := rfl
@[simp] theorem State.respond_responses (r : Response) (s : State) : (State.respond r s).responses = s.responses ++ [r] := rfl

/-! ### State.latch -/

@[simp] theorem State.latch_cfg (c : Cause) (s : State) : (State.latch c s).cfg = s.cfg := rfl
@[simp] theorem State.latch_count (c : Cause) (s : State) : (State.latch c s).count = s.count := rfl
@[simp] theorem State.latch_hlen (c : Cause) (s : State) : (State.latch c s).hlen = s.hlen := rfl
@[simp] theorem State.latch_plen (c : Cause) (s : State) : (State.latch c s).plen = s.plen := rfl
@[simp] theorem State.latch_slen (c : Cause) (s : State) : (State.latch c s).slen = s.slen := rfl
@[simp] theorem State.latch_stg (c : Cause) (s : State) : (State.latch c s).stg = s.stg := rfl
@[simp] theorem State.latch_hdr (c : Cause) (s : State) : (State.latch c s).hdr = s.hdr := rfl
@[simp] theorem State.latch_pkd (c : Cause) (s : State) : (State.latch c s).pkd = s.pkd := rfl
@[simp] theorem State.latch_fault (c : Cause) (s : State) : (State.latch c s).fault = true := rfl
@[simp] theorem State.latch_cause (c : Cause) (s : State) : (State.latch c s).cause = c := rfl
@[simp] theorem State.latch_inbox (c : Cause) (s : State) : (State.latch c s).inbox = s.inbox := rfl
@[simp] theorem State.latch_responses (c : Cause) (s : State) : (State.latch c s).responses = s.responses := rfl

/-! ### State.unlatch -/

@[simp] theorem State.unlatch_cfg (s : State) : s.unlatch.cfg = s.cfg := rfl
@[simp] theorem State.unlatch_count (s : State) : s.unlatch.count = s.count := rfl
@[simp] theorem State.unlatch_hlen (s : State) : s.unlatch.hlen = s.hlen := rfl
@[simp] theorem State.unlatch_plen (s : State) : s.unlatch.plen = s.plen := rfl
@[simp] theorem State.unlatch_slen (s : State) : s.unlatch.slen = s.slen := rfl
@[simp] theorem State.unlatch_stg (s : State) : s.unlatch.stg = s.stg := rfl
@[simp] theorem State.unlatch_hdr (s : State) : s.unlatch.hdr = s.hdr := rfl
@[simp] theorem State.unlatch_pkd (s : State) : s.unlatch.pkd = s.pkd := rfl
@[simp] theorem State.unlatch_fault (s : State) : s.unlatch.fault = false := rfl
@[simp] theorem State.unlatch_cause (s : State) : s.unlatch.cause = .none := rfl
@[simp] theorem State.unlatch_inbox (s : State) : s.unlatch.inbox = s.inbox := rfl
@[simp] theorem State.unlatch_responses (s : State) : s.unlatch.responses = s.responses := rfl

/-! ### State.clear -/

@[simp] theorem State.clear_cfg (s : State) : s.clear.cfg = s.cfg := rfl
@[simp] theorem State.clear_count (s : State) : s.clear.count = 0 := rfl
@[simp] theorem State.clear_hlen (s : State) : s.clear.hlen = 0 := rfl
@[simp] theorem State.clear_plen (s : State) : s.clear.plen = 0 := rfl
@[simp] theorem State.clear_slen (s : State) : s.clear.slen = 0 := rfl
@[simp] theorem State.clear_stg (s : State) : s.clear.stg = s.stg := rfl
@[simp] theorem State.clear_hdr (s : State) : s.clear.hdr = s.hdr := rfl
@[simp] theorem State.clear_pkd (s : State) : s.clear.pkd = s.pkd := rfl
@[simp] theorem State.clear_fault (s : State) : s.clear.fault = s.fault := rfl
@[simp] theorem State.clear_cause (s : State) : s.clear.cause = s.cause := rfl
@[simp] theorem State.clear_inbox (s : State) : s.clear.inbox = s.inbox := rfl
@[simp] theorem State.clear_responses (s : State) : s.clear.responses = s.responses := rfl

/-! ### State.stage -/

@[simp] theorem State.stage_cfg (k : Fin 4) (x : Value) (s : State) : (State.stage k x s).cfg = s.cfg := rfl
@[simp] theorem State.stage_count (k : Fin 4) (x : Value) (s : State) : (State.stage k x s).count = s.count + 1 := rfl
@[simp] theorem State.stage_hlen (k : Fin 4) (x : Value) (s : State) : (State.stage k x s).hlen = s.hlen := rfl
@[simp] theorem State.stage_plen (k : Fin 4) (x : Value) (s : State) : (State.stage k x s).plen = s.plen := rfl
@[simp] theorem State.stage_slen (k : Fin 4) (x : Value) (s : State) : (State.stage k x s).slen = k.succ := rfl
@[simp] theorem State.stage_stg (k : Fin 4) (x : Value) (s : State) : (State.stage k x s).stg = s.stg.set k x := rfl
@[simp] theorem State.stage_hdr (k : Fin 4) (x : Value) (s : State) : (State.stage k x s).hdr = s.hdr := rfl
@[simp] theorem State.stage_pkd (k : Fin 4) (x : Value) (s : State) : (State.stage k x s).pkd = s.pkd := rfl
@[simp] theorem State.stage_fault (k : Fin 4) (x : Value) (s : State) : (State.stage k x s).fault = s.fault := rfl
@[simp] theorem State.stage_cause (k : Fin 4) (x : Value) (s : State) : (State.stage k x s).cause = s.cause := rfl
@[simp] theorem State.stage_inbox (k : Fin 4) (x : Value) (s : State) : (State.stage k x s).inbox = s.inbox := rfl
@[simp] theorem State.stage_responses (k : Fin 4) (x : Value) (s : State) : (State.stage k x s).responses = s.responses := rfl

/-! ### State.commit -/

@[simp] theorem State.commit_cfg (n : Nat) (s : State) : (State.commit n s).cfg = s.cfg := rfl
@[simp] theorem State.commit_count (n : Nat) (s : State) : (State.commit n s).count = s.count := rfl
@[simp] theorem State.commit_hlen (n : Nat) (s : State) : (State.commit n s).hlen = s.hlen + 1 := rfl
@[simp] theorem State.commit_plen (n : Nat) (s : State) : (State.commit n s).plen = s.plen + n := rfl
@[simp] theorem State.commit_slen (n : Nat) (s : State) : (State.commit n s).slen = 0 := rfl
@[simp] theorem State.commit_stg (n : Nat) (s : State) : (State.commit n s).stg = s.stg := rfl
@[simp] theorem State.commit_hdr (n : Nat) (s : State) : (State.commit n s).hdr = s.hdr := rfl
@[simp] theorem State.commit_pkd (n : Nat) (s : State) : (State.commit n s).pkd = s.pkd := rfl
@[simp] theorem State.commit_fault (n : Nat) (s : State) : (State.commit n s).fault = s.fault := rfl
@[simp] theorem State.commit_cause (n : Nat) (s : State) : (State.commit n s).cause = s.cause := rfl
@[simp] theorem State.commit_inbox (n : Nat) (s : State) : (State.commit n s).inbox = s.inbox := rfl
@[simp] theorem State.commit_responses (n : Nat) (s : State) : (State.commit n s).responses = s.responses := rfl

/-! ### State.withInbox -/

@[simp] theorem State.withInbox_cfg (es : List HostEvent) (s : State) : (s.withInbox es).cfg = s.cfg := rfl
@[simp] theorem State.withInbox_count (es : List HostEvent) (s : State) : (s.withInbox es).count = s.count := rfl
@[simp] theorem State.withInbox_hlen (es : List HostEvent) (s : State) : (s.withInbox es).hlen = s.hlen := rfl
@[simp] theorem State.withInbox_plen (es : List HostEvent) (s : State) : (s.withInbox es).plen = s.plen := rfl
@[simp] theorem State.withInbox_slen (es : List HostEvent) (s : State) : (s.withInbox es).slen = s.slen := rfl
@[simp] theorem State.withInbox_stg (es : List HostEvent) (s : State) : (s.withInbox es).stg = s.stg := rfl
@[simp] theorem State.withInbox_hdr (es : List HostEvent) (s : State) : (s.withInbox es).hdr = s.hdr := rfl
@[simp] theorem State.withInbox_pkd (es : List HostEvent) (s : State) : (s.withInbox es).pkd = s.pkd := rfl
@[simp] theorem State.withInbox_fault (es : List HostEvent) (s : State) : (s.withInbox es).fault = s.fault := rfl
@[simp] theorem State.withInbox_cause (es : List HostEvent) (s : State) : (s.withInbox es).cause = s.cause := rfl
@[simp] theorem State.withInbox_inbox (es : List HostEvent) (s : State) : (s.withInbox es).inbox = es := rfl
@[simp] theorem State.withInbox_responses (es : List HostEvent) (s : State) : (s.withInbox es).responses = s.responses := rfl

/-! ### State.memWrite, space hdr -/

@[simp] theorem State.memWrite_hdr_cfg (a : Nat) (bs : List Byte) (s : State) : (s.memWrite .hdr a bs).cfg = s.cfg := rfl
@[simp] theorem State.memWrite_hdr_count (a : Nat) (bs : List Byte) (s : State) : (s.memWrite .hdr a bs).count = s.count := rfl
@[simp] theorem State.memWrite_hdr_hlen (a : Nat) (bs : List Byte) (s : State) : (s.memWrite .hdr a bs).hlen = s.hlen := rfl
@[simp] theorem State.memWrite_hdr_plen (a : Nat) (bs : List Byte) (s : State) : (s.memWrite .hdr a bs).plen = s.plen := rfl
@[simp] theorem State.memWrite_hdr_slen (a : Nat) (bs : List Byte) (s : State) : (s.memWrite .hdr a bs).slen = s.slen := rfl
@[simp] theorem State.memWrite_hdr_stg (a : Nat) (bs : List Byte) (s : State) : (s.memWrite .hdr a bs).stg = s.stg := rfl
@[simp] theorem State.memWrite_hdr_hdr (a : Nat) (bs : List Byte) (s : State) : (s.memWrite .hdr a bs).hdr = Memory.writeBytes s.hdr a bs := rfl
@[simp] theorem State.memWrite_hdr_pkd (a : Nat) (bs : List Byte) (s : State) : (s.memWrite .hdr a bs).pkd = s.pkd := rfl
@[simp] theorem State.memWrite_hdr_fault (a : Nat) (bs : List Byte) (s : State) : (s.memWrite .hdr a bs).fault = s.fault := rfl
@[simp] theorem State.memWrite_hdr_cause (a : Nat) (bs : List Byte) (s : State) : (s.memWrite .hdr a bs).cause = s.cause := rfl
@[simp] theorem State.memWrite_hdr_inbox (a : Nat) (bs : List Byte) (s : State) : (s.memWrite .hdr a bs).inbox = s.inbox := rfl
@[simp] theorem State.memWrite_hdr_responses (a : Nat) (bs : List Byte) (s : State) : (s.memWrite .hdr a bs).responses = s.responses := rfl

/-! ### State.memWrite, space pkd -/

@[simp] theorem State.memWrite_pkd_cfg (a : Nat) (bs : List Byte) (s : State) : (s.memWrite .pkd a bs).cfg = s.cfg := rfl
@[simp] theorem State.memWrite_pkd_count (a : Nat) (bs : List Byte) (s : State) : (s.memWrite .pkd a bs).count = s.count := rfl
@[simp] theorem State.memWrite_pkd_hlen (a : Nat) (bs : List Byte) (s : State) : (s.memWrite .pkd a bs).hlen = s.hlen := rfl
@[simp] theorem State.memWrite_pkd_plen (a : Nat) (bs : List Byte) (s : State) : (s.memWrite .pkd a bs).plen = s.plen := rfl
@[simp] theorem State.memWrite_pkd_slen (a : Nat) (bs : List Byte) (s : State) : (s.memWrite .pkd a bs).slen = s.slen := rfl
@[simp] theorem State.memWrite_pkd_stg (a : Nat) (bs : List Byte) (s : State) : (s.memWrite .pkd a bs).stg = s.stg := rfl
@[simp] theorem State.memWrite_pkd_hdr (a : Nat) (bs : List Byte) (s : State) : (s.memWrite .pkd a bs).hdr = s.hdr := rfl
@[simp] theorem State.memWrite_pkd_pkd (a : Nat) (bs : List Byte) (s : State) : (s.memWrite .pkd a bs).pkd = Memory.writeBytes s.pkd a bs := rfl
@[simp] theorem State.memWrite_pkd_fault (a : Nat) (bs : List Byte) (s : State) : (s.memWrite .pkd a bs).fault = s.fault := rfl
@[simp] theorem State.memWrite_pkd_cause (a : Nat) (bs : List Byte) (s : State) : (s.memWrite .pkd a bs).cause = s.cause := rfl
@[simp] theorem State.memWrite_pkd_inbox (a : Nat) (bs : List Byte) (s : State) : (s.memWrite .pkd a bs).inbox = s.inbox := rfl
@[simp] theorem State.memWrite_pkd_responses (a : Nat) (bs : List Byte) (s : State) : (s.memWrite .pkd a bs).responses = s.responses := rfl

/-! ### State.flush -/

@[simp] theorem State.flush_cfg (s : State) : s.flush.cfg = s.cfg := rfl
@[simp] theorem State.flush_count (s : State) : s.flush.count = s.count := rfl
@[simp] theorem State.flush_hlen (s : State) : s.flush.hlen = s.hlen + 1 := rfl
@[simp] theorem State.flush_plen (s : State) : s.flush.plen = s.plen + groupNeed s.stg := rfl
@[simp] theorem State.flush_slen (s : State) : s.flush.slen = 0 := rfl
@[simp] theorem State.flush_stg (s : State) : s.flush.stg = s.stg := rfl
@[simp] theorem State.flush_hdr (s : State) : s.flush.hdr = Memory.writeBytes s.hdr s.hlen [groupHeader s.stg] := rfl
@[simp] theorem State.flush_pkd (s : State) : s.flush.pkd = Memory.writeBytes s.pkd s.plen (groupBytes s.stg) := rfl
@[simp] theorem State.flush_fault (s : State) : s.flush.fault = s.fault := rfl
@[simp] theorem State.flush_cause (s : State) : s.flush.cause = s.cause := rfl
@[simp] theorem State.flush_inbox (s : State) : s.flush.inbox = s.inbox := rfl
@[simp] theorem State.flush_responses (s : State) : s.flush.responses = s.responses := rfl

/-! ### The reset event -/

@[simp] theorem State.resetBlock_eq (s : State) : s.resetBlock = s.clear.unlatch := rfl

/-! ### Spaces -/

@[simp] theorem State.mem_hdr (s : State) : s.mem .hdr = s.hdr := rfl
@[simp] theorem State.mem_pkd (s : State) : s.mem .pkd = s.pkd := rfl
@[simp] theorem State.len_hdr (s : State) : s.len .hdr = s.hlen := rfl
@[simp] theorem State.len_pkd (s : State) : s.len .pkd = s.plen := rfl
@[simp] theorem State.cap_hdr (s : State) : s.cap .hdr = s.cfg.hdrCap := rfl
@[simp] theorem State.cap_pkd (s : State) : s.cap .pkd = s.cfg.pkdCap := rfl

/-! ### Staging registers -/

@[simp] theorem Staging.length_toList (g : Staging) : g.toList.length = 4 := rfl
@[simp] theorem Staging.reg_zero (g : Staging) : g.reg 0 = g.r0 := rfl
@[simp] theorem Staging.reg_one (g : Staging) : g.reg 1 = g.r1 := rfl
@[simp] theorem Staging.reg_two (g : Staging) : g.reg 2 = g.r2 := rfl
@[simp] theorem Staging.reg_three (g : Staging) : g.reg 3 = g.r3 := rfl

/-- Writing a register is seen there and nowhere else. -/
theorem Staging.reg_set (g : Staging) (i j : Fin 4) (v : Value) :
    (g.set i v).reg j.val = if j = i then v else g.reg j.val := by
  fin_cases i <;> fin_cases j <;> rfl

end Sys2Proof.Machine
end

