-- ==== Sys2Proof/Laws/Codec.lean ====
section
/-! SUPPORT. The laws of the data forms: widths, header bytes, big-endian bytes, and the byte unpacker on appended input. -/

namespace Sys2Proof.Machine

/-! ### Widths -/

theorem width_pos (x : Value) : 1 ≤ width x := by
  unfold width
  split_ifs <;> omega

theorem width_le_four (x : Value) : width x ≤ 4 := by
  unfold width
  split_ifs <;> omega

/-- A width is one of the four numbers. -/
theorem width_cases (x : Value) : width x = 1 ∨ width x = 2 ∨ width x = 3 ∨ width x = 4 := by
  have := width_pos x
  have := width_le_four x
  omega

/-- Nothing of a value is lost in as many bytes as its width. -/
theorem toNat_lt_of_width (x : Value) : x.toNat < 256 ^ width x := by
  have := x.isLt
  unfold width
  split_ifs <;> omega

/-! ### Big-endian bytes -/

@[simp] theorem length_be (x : Value) (w : Nat) : (be x w).length = w := by simp [be]

@[simp] theorem length_packedValue (v : Value) : (packedValue v).length = width v := length_be _ _

/-- The number the low `w` bytes of a value spell. -/
theorem unbeNat_be (x : Value) (w : Nat) : unbeNat (be x w) = x.toNat % 256 ^ w := by
  induction w with
  | zero => simp [be, unbeNat, Nat.mod_one]
  | succ w ih =>
    have hcons : be x (w + 1) = BitVec.ofNat 8 ((x.toNat >>> (8 * w)) &&& 0xFF) :: be x w := by
      simp only [be, List.range_succ_eq_map, List.map_cons, List.map_map]
      congr 1
      apply List.map_congr_left
      intro j _
      simp only [Function.comp_apply]
      rw [show w + 1 - 1 - (j + 1) = w - 1 - j by omega]
    rw [hcons, unbeNat, ih, length_be]
    have hb : (BitVec.ofNat 8 ((x.toNat >>> (8 * w)) &&& 0xFF)).toNat = x.toNat / 256 ^ w % 256 := by
      rw [BitVec.toNat_ofNat, show (0xFF : Nat) = 2 ^ 8 - 1 by rfl, Nat.and_two_pow_sub_one_eq_mod, Nat.shiftRight_eq_div_pow,
        Nat.pow_mul, show (2 : Nat) ^ 8 = 256 by rfl, Nat.mod_mod]
    rw [hb, Nat.pow_succ, Nat.mod_mul, Nat.mul_comm (256 ^ w), Nat.add_comm]

/-- The bytes the encoder gives a value spell it. -/
theorem unbe_packedValue (v : Value) : unbe (packedValue v) = v := by
  apply BitVec.eq_of_toNat_eq
  rw [unbe, packedValue, unbeNat_be, Nat.mod_eq_of_lt (toNat_lt_of_width v), BitVec.toNat_ofNat, Nat.mod_eq_of_lt v.isLt]

/-! ### Header bytes -/

/-- A header byte's widths are those it was assembled from. -/
theorem headerWidths_hdrByte {w0 w1 w2 w3 : Nat} (h0 : 1 ≤ w0 ∧ w0 ≤ 4) (h1 : 1 ≤ w1 ∧ w1 ≤ 4) (h2 : 1 ≤ w2 ∧ w2 ≤ 4)
    (h3 : 1 ≤ w3 ∧ w3 ≤ 4) : headerWidths (hdrByte w0 w1 w2 w3) = [w0, w1, w2, w3] := by
  obtain ⟨k0, hk0, rfl⟩ : ∃ k, k < 4 ∧ w0 = k + 1 := ⟨w0 - 1, by omega, by omega⟩
  obtain ⟨k1, hk1, rfl⟩ : ∃ k, k < 4 ∧ w1 = k + 1 := ⟨w1 - 1, by omega, by omega⟩
  obtain ⟨k2, hk2, rfl⟩ : ∃ k, k < 4 ∧ w2 = k + 1 := ⟨w2 - 1, by omega, by omega⟩
  obtain ⟨k3, hk3, rfl⟩ : ∃ k, k < 4 ∧ w3 = k + 1 := ⟨w3 - 1, by omega, by omega⟩
  have key : ∀ a < 4, ∀ b < 4, ∀ c < 4, ∀ d < 4,
      headerWidths (hdrByte (a + 1) (b + 1) (c + 1) (d + 1)) = [a + 1, b + 1, c + 1, d + 1] := by decide
  exact key k0 hk0 k1 hk1 k2 hk2 k3 hk3

/-- A group's header holds the widths of its four values in order. -/
theorem headerWidths_groupHeader (g : Staging) : headerWidths (groupHeader g) = g.toList.map width :=
  headerWidths_hdrByte ⟨width_pos _, width_le_four _⟩ ⟨width_pos _, width_le_four _⟩ ⟨width_pos _, width_le_four _⟩
    ⟨width_pos _, width_le_four _⟩

@[simp] theorem length_headerWidths (h : Byte) : (headerWidths h).length = 4 := rfl

@[simp] theorem widthsOf_nil : widthsOf [] = [] := rfl

theorem widthsOf_append (a b : List Byte) : widthsOf (a ++ b) = widthsOf a ++ widthsOf b := List.flatMap_append

@[simp] theorem widthsOf_singleton (h : Byte) : widthsOf [h] = headerWidths h := by simp [widthsOf]

@[simp] theorem length_widthsOf (headers : List Byte) : (widthsOf headers).length = 4 * headers.length := by
  induction headers with
  | nil => rfl
  | cons h hs ih => simp [widthsOf, List.flatMap_cons] at ih ⊢; omega

/-! ### Groups -/

theorem groupBytes_eq (g : Staging) : groupBytes g = g.toList.flatMap packedValue := by
  simp [groupBytes, Staging.toList]

theorem groupNeed_eq (g : Staging) : groupNeed g = (g.toList.map width).sum := by
  simp [groupNeed, Staging.toList, Nat.add_assoc]

@[simp] theorem length_groupBytes (g : Staging) : (groupBytes g).length = groupNeed g := by
  simp [groupBytes, groupNeed]
  omega

/-! ### The byte unpacker -/

@[simp] theorem unpack_nil (p : List Byte) (cur : Nat) : unpack p [] cur = some [] := rfl

/-- The unpacker succeeds exactly when the widths stay within the bytes. -/
theorem unpack_isSome (p : List Byte) (ws : List Nat) (cur : Nat) (hw : ∀ w ∈ ws, 1 ≤ w) :
    (unpack p ws cur).isSome = decide (ws = [] ∨ cur + ws.sum ≤ p.length) := by
  induction ws generalizing cur with
  | nil => simp
  | cons w ws ih =>
    have ih' := ih (cur + w) fun x hx => hw x (List.mem_cons_of_mem _ hx)
    simp only [unpack]
    split
    · simp
      omega
    · rw [Option.isSome_map, ih']
      cases ws <;> simp <;> omega

/-- More bytes at the end change nothing of what is unpacked. -/
theorem unpack_append_bytes {p : List Byte} {ws : List Nat} {cur : Nat} {vs : List Value} (e : List Byte)
    (h : unpack p ws cur = some vs) : unpack (p ++ e) ws cur = some vs := by
  induction ws generalizing cur vs with
  | nil => exact h
  | cons w ws ih =>
    simp only [unpack] at h ⊢
    split at h
    · cases h
    · obtain ⟨us, hu, rfl⟩ := Option.map_eq_some_iff.mp h
      rw [if_neg (by simp; omega), ih hu, List.drop_append_of_le_length (by omega),
        List.take_append_of_le_length (by simp; omega)]
      rfl

/-- Unpacking goes on where it stopped. -/
theorem unpack_append_widths {p : List Byte} {ws ws' : List Nat} {cur : Nat} {vs : List Value}
    (h : unpack p ws cur = some vs) :
    unpack p (ws ++ ws') cur = (unpack p ws' (cur + ws.sum)).map fun us => vs ++ us := by
  induction ws generalizing cur vs with
  | nil =>
    cases h
    simp
  | cons w ws ih =>
    simp only [unpack] at h
    split at h
    · cases h
    · obtain ⟨us, hu, rfl⟩ := Option.map_eq_some_iff.mp h
      simp only [List.cons_append, unpack, ih hu, List.sum_cons]
      rw [if_neg ‹_›, Option.map_map, Nat.add_assoc]
      rfl

/-- What the encoder appends for values is unpacked to them. -/
theorem unpack_packedValues (p : List Byte) (vs : List Value) :
    unpack (p ++ vs.flatMap packedValue) (vs.map width) p.length = some vs := by
  induction vs generalizing p with
  | nil => rfl
  | cons v vs ih =>
    have h := ih (p ++ packedValue v)
    simp only [List.append_assoc, List.length_append, length_packedValue] at h
    simp only [List.map_cons, List.flatMap_cons, unpack, h]
    rw [if_neg (by simp)]
    simp [unbe_packedValue]

/-- Unpacking a committed stream with one more group appended to it. -/
theorem unpack_group {p : List Byte} {ws : List Nat} {vs : List Value} (g : Staging) (h : unpack p ws 0 = some vs)
    (hp : p.length = ws.sum) :
    unpack (p ++ groupBytes g) (ws ++ headerWidths (groupHeader g)) 0 = some (vs ++ g.toList) := by
  rw [unpack_append_widths (unpack_append_bytes _ h), headerWidths_groupHeader, groupBytes_eq, Nat.zero_add, ← hp,
    unpack_packedValues]
  rfl

/-- The unpacker gives one value for each width. -/
theorem length_unpack {p : List Byte} {ws : List Nat} {cur : Nat} {vs : List Value} (h : unpack p ws cur = some vs) :
    vs.length = ws.length := by
  induction ws generalizing cur vs with
  | nil => cases h; rfl
  | cons w ws ih =>
    simp only [unpack] at h
    split at h
    · cases h
    · obtain ⟨us, hu, rfl⟩ := Option.map_eq_some_iff.mp h
      simp [ih hu]

end Sys2Proof.Machine
end

