-- ==== Sys2Proof/Laws/Listing.lean ====
section
/-! SUPPORT. The reader of listings against the usual meaning of digits, and the pieces of a text between its commas. -/

namespace Sys2Proof.Machine

/-- The lower case of a character, as a number. -/
theorem toNat_toLower (c : Char) :
    c.toLower.toNat = if 65 ≤ c.toNat ∧ c.toNat ≤ 90 then c.toNat + 32 else c.toNat := by
  have h : (c.val ≥ 'A'.val ∧ c.val ≤ 'Z'.val) ↔ (65 ≤ c.toNat ∧ c.toNat ≤ 90) := by
    rw [ge_iff_le, UInt32.le_iff_toNat_le, UInt32.le_iff_toNat_le]
    exact Iff.rfl
  unfold Char.toLower
  split
  · rename_i hc
    have hc' := h.mp hc
    have e : ∀ hv, (⟨c.val + 32, hv⟩ : Char).toNat = (c.val.toNat + (32 : UInt32).toNat) % 2 ^ 32 :=
      fun _ => UInt32.toNat_add ..
    have e1 : c.val.toNat = c.toNat := rfl
    have e2 : (32 : UInt32).toNat = 32 := rfl
    rw [if_pos hc']
    refine (e _).trans ?_
    rw [e1, e2]
    omega
  · rename_i hc
    rw [if_neg (mt h.mpr hc)]

/-- The character of a digit, in either case, is read as that digit. -/
theorem digitOf_of_toLower {base d : Nat} {c : Char} (hb : base ≤ 16) (hd : d < base) (h : c.toLower = Nat.digitChar d) :
    digitOf base c = some d := by
  have h2 := congrArg Char.toNat h
  have hk : (Nat.digitChar d).toNat = if d < 10 then 48 + d else 87 + d := by
    have : d < 16 := by omega
    interval_cases d <;> rfl
  rw [toNat_toLower, hk] at h2
  have : (if 48 ≤ c.toNat ∧ c.toNat ≤ 57 then c.toNat - 48
      else if 65 ≤ c.toNat ∧ c.toNat ≤ 70 then c.toNat - 55
      else if 97 ≤ c.toNat ∧ c.toNat ≤ 102 then c.toNat - 87
      else 16) = d := by
    split_ifs at * <;> omega
  unfold digitOf
  simp only [this]
  rw [if_pos hd]

theorem digitsFrom_of_digits {base acc : Nat} {cs : List Char} {ds : List Nat} (hb : base ≤ 16) (hd : ∀ d ∈ ds, d < base)
    (h : cs.map Char.toLower = ds.map Nat.digitChar) :
    digitsFrom base acc cs = some (acc * base ^ ds.length + Nat.ofDigits base ds.reverse) := by
  induction ds generalizing cs acc with
  | nil => simp at h; subst h; simp [digitsFrom]
  | cons d ds ih =>
    cases cs with
    | nil => simp at h
    | cons c cs =>
      simp only [List.map_cons, List.cons.injEq] at h
      rw [digitsFrom, digitOf_of_toLower hb (hd d List.mem_cons_self) h.1]
      simp only
      rw [ih (fun x hx => hd x (List.mem_cons_of_mem _ hx)) h.2]
      simp [Nat.ofDigits_append]
      ring

/-- Digits of a number are read as that number. -/
theorem digits_of_spellsIn {base : Nat} {cs : List Char} {n : Nat} (hb : base ≤ 16) (h : SpellsIn base cs n) :
    digits base cs = some n := by
  obtain ⟨ds, hne, hd, hm, rfl⟩ := h
  cases cs with
  | nil => simp at hm; exact absurd hm hne
  | cons c cs => rw [digits, digitsFrom_of_digits hb hd hm]; simp

/-- An operand of a number is read as that number (30_encoding.md R65). -/
theorem operandNumber_of_spells {cs : List Char} {n : Nat} (h : SpellsOperand cs n) : operandNumber cs = some n := by
  rcases h with h | ⟨xs, rfl, h⟩
  · have hd := digits_of_spellsIn (by omega) h
    unfold operandNumber
    split
    · simp [digits, digitsFrom, digitOf] at hd
    · exact hd
  · exact digits_of_spellsIn (by omega) h

/-- A text without a comma is one piece, and a comma ends it. -/
theorem splitCommas_of_notMem {p : List Char} (hp : ',' ∉ p) :
    splitCommas p = [p] ∧ ∀ r, splitCommas (p ++ ',' :: r) = p :: splitCommas r := by
  induction p with
  | nil => simp [splitCommas]
  | cons c p ih =>
    simp only [List.mem_cons, not_or] at hp
    obtain ⟨h1, h2⟩ := ih hp.2
    refine ⟨?_, fun r => ?_⟩
    · rw [splitCommas, if_neg (Ne.symm hp.1), h1]
    · rw [List.cons_append, splitCommas, if_neg (Ne.symm hp.1), h2]

end Sys2Proof.Machine
end

