-- ==== Sys2Proof/Laws/Memory.lean ====
section
/-! SUPPORT. The laws of the byte memories: a read after a write, and the canonical form is kept. -/

namespace Sys2Proof.Machine

/-! ### The canonical form -/

@[simp] theorem Memory.wfFrom_nil (lo : Nat) : Memory.wfFrom lo [] = true := rfl

theorem Memory.wfFrom_cons {lo a : Nat} {b : Byte} {m : Memory} :
    Memory.wfFrom lo ((a, b) :: m) = true ↔ lo ≤ a ∧ b ≠ unlistedByte ∧ Memory.wfFrom (a + 1) m = true := by
  simp [Memory.wfFrom, and_assoc]

theorem Memory.wfFrom_mono {lo lo' : Nat} {m : Memory} (h : Memory.wfFrom lo m = true) (hl : lo' ≤ lo) :
    Memory.wfFrom lo' m = true := by
  cases m with
  | nil => rfl
  | cons e m =>
    obtain ⟨h1, h2, h3⟩ := Memory.wfFrom_cons.mp h
    exact Memory.wfFrom_cons.mpr ⟨by omega, h2, h3⟩

theorem Memory.wfFrom_consCell {lo a : Nat} {b : Byte} {m : Memory} (hl : lo ≤ a)
    (h : Memory.wfFrom (a + 1) m = true) : Memory.wfFrom lo (Memory.consCell a b m) = true := by
  unfold Memory.consCell
  split
  · exact Memory.wfFrom_mono h (by omega)
  · exact Memory.wfFrom_cons.mpr ⟨hl, ‹_›, h⟩

theorem Memory.wfFrom_write {lo a : Nat} {b : Byte} {m : Memory} (h : Memory.wfFrom lo m = true) (hl : lo ≤ a) :
    Memory.wfFrom lo (Memory.write m a b) = true := by
  induction m generalizing lo with
  | nil => exact Memory.wfFrom_consCell hl rfl
  | cons e m ih =>
    obtain ⟨x, c⟩ := e
    obtain ⟨h1, h2, h3⟩ := Memory.wfFrom_cons.mp h
    simp only [Memory.write]
    split
    · exact Memory.wfFrom_consCell hl (Memory.wfFrom_cons.mpr ⟨by omega, h2, h3⟩)
    · split
      · exact Memory.wfFrom_consCell hl (by simp_all)
      · exact Memory.wfFrom_cons.mpr ⟨h1, h2, ih h3 (by omega)⟩

/-- Writing a byte keeps the canonical form. -/
theorem Memory.wf_write {m : Memory} (h : Memory.wf m = true) (a : Nat) (b : Byte) :
    Memory.wf (Memory.write m a b) = true := Memory.wfFrom_write h (Nat.zero_le _)

/-- Writing bytes keeps the canonical form. -/
theorem Memory.wf_writeBytes {m : Memory} (h : Memory.wf m = true) (a : Nat) (bs : List Byte) :
    Memory.wf (Memory.writeBytes m a bs) = true := by
  induction bs generalizing m a with
  | nil => exact h
  | cons b bs ih => exact ih (Memory.wf_write h a b) (a + 1)

/-- `MemWrite` keeps the canonical form of both memories. -/
theorem State.wf_memWrite {s : State} (hh : Memory.wf s.hdr = true) (hp : Memory.wf s.pkd = true) (sp : Space) (a : Nat)
    (bs : List Byte) :
    Memory.wf (s.memWrite sp a bs).hdr = true ∧ Memory.wf (s.memWrite sp a bs).pkd = true := by
  cases sp <;> simp [hh, hp, Memory.wf_writeBytes]

/-- The memories right after reset list nothing, which is the canonical form. -/
theorem Memory.wf_reset (c : Config) :
    Memory.wf (State.resetWith c).hdr = true ∧ Memory.wf (State.resetWith c).pkd = true := ⟨rfl, rfl⟩

/-! ### Read after write -/

theorem Memory.read_below {lo a : Nat} {m : Memory} (h : Memory.wfFrom lo m = true) (ha : a < lo) :
    Memory.read m a = unlistedByte := by
  cases m with
  | nil => rfl
  | cons e m =>
    have h1 := (Memory.wfFrom_cons.mp h).1
    simp only [Memory.read]
    rw [if_pos (by omega)]

theorem Memory.read_consCell {lo a a' : Nat} {b : Byte} {m : Memory} (h : Memory.wfFrom lo m = true) (hl : a < lo) :
    Memory.read (Memory.consCell a b m) a' = if a' = a then b else Memory.read m a' := by
  unfold Memory.consCell
  split
  · split
    · subst_vars
      exact Memory.read_below h hl
    · rfl
  · simp only [Memory.read]
    split
    · rw [if_neg (by omega), Memory.read_below h (by omega)]
    · rfl

theorem Memory.read_write_from {lo a a' : Nat} {b : Byte} {m : Memory} (h : Memory.wfFrom lo m = true) :
    Memory.read (Memory.write m a b) a' = if a' = a then b else Memory.read m a' := by
  induction m generalizing lo with
  | nil => exact Memory.read_consCell (lo := a + 1) rfl (by omega)
  | cons e m ih =>
    obtain ⟨x, c⟩ := e
    obtain ⟨h1, h2, h3⟩ := Memory.wfFrom_cons.mp h
    simp only [Memory.write]
    split
    · exact Memory.read_consCell (lo := x) (Memory.wfFrom_cons.mpr ⟨le_refl x, h2, h3⟩) ‹_›
    · split
      · subst_vars
        rw [Memory.read_consCell h3 (by omega)]
        simp only [Memory.read]
        split
        · rfl
        · split
          · exact Memory.read_below h3 (by omega)
          · rfl
      · simp only [Memory.read, ih h3]
        split
        · rw [if_neg (by omega)]
        · split
          · rw [if_neg (by omega)]
          · rfl

/-- A read after a write of a byte gives it at its address, and what was there before everywhere else. -/
theorem Memory.read_write {m : Memory} (h : Memory.wf m = true) (a a' : Nat) (b : Byte) :
    Memory.read (Memory.write m a b) a' = if a' = a then b else Memory.read m a' := Memory.read_write_from h

/-- A read after a write of bytes: inside them the byte written, outside them the byte before. -/
theorem Memory.read_writeBytes {m : Memory} (h : Memory.wf m = true) (a a' : Nat) (bs : List Byte) :
    Memory.read (Memory.writeBytes m a bs) a' =
      if a ≤ a' then bs.getD (a' - a) (Memory.read m a') else Memory.read m a' := by
  induction bs generalizing m a with
  | nil => simp [Memory.writeBytes]
  | cons b bs ih =>
    rw [Memory.writeBytes, ih (Memory.wf_write h a b), Memory.read_write h]
    rcases Nat.lt_trichotomy a' a with hlt | rfl | hgt
    · simp [show ¬ a + 1 ≤ a' by omega, show ¬ a ≤ a' by omega, show a' ≠ a by omega]
    · simp
    · obtain ⟨k, rfl⟩ : ∃ k, a' = a + 1 + k := ⟨a' - (a + 1), by omega⟩
      simp [show a + 1 + k ≠ a by omega, show a ≤ a + 1 + k by omega, show a + 1 + k - a = k + 1 by omega]

/-! ### The live bytes -/

@[simp] theorem State.length_memRead (s : State) (sp : Space) (a n : Nat) : (s.memRead sp a n).length = n := by
  simp [State.memRead]

@[simp] theorem State.length_headers (s : State) : s.headers.length = s.hlen := State.length_memRead _ _ _ _

@[simp] theorem State.length_packed (s : State) : s.packed.length = s.plen := State.length_memRead _ _ _ _

@[simp] theorem State.length_staging (s : State) : s.staging.length = s.slen.val := by
  simp [State.staging]
  omega

theorem State.getElem_headers (s : State) (a : Nat) (h : a < s.headers.length) :
    s.headers[a] = s.readByte .hdr a := by
  simp [State.headers, State.memRead]

theorem State.getElem_packed (s : State) (a : Nat) (h : a < s.packed.length) :
    s.packed[a] = s.readByte .pkd a := by
  simp [State.packed, State.memRead]

/-- The first bytes of a memory after bytes were appended at its length: those before, then those written. -/
theorem Memory.range_writeBytes {m : Memory} (h : Memory.wf m = true) (n : Nat) (bs : List Byte) :
    (List.range (n + bs.length)).map (fun a => Memory.read (Memory.writeBytes m n bs) a) =
      (List.range n).map (fun a => Memory.read m a) ++ bs := by
  apply List.ext_getElem
  · simp
  · intro k h1 h2
    simp only [List.getElem_map, List.getElem_range, Memory.read_writeBytes h]
    by_cases hk : k < n
    · rw [if_neg (by omega), List.getElem_append_left (by simpa using hk)]
      simp
    · have hlt : k - n < bs.length := by
        simp at h1
        omega
      rw [if_pos (by omega), List.getElem_append_right (by simpa using hk)]
      simp [List.getD_eq_getElem?_getD, hlt]

end Sys2Proof.Machine
end

