-- ==== Sys2Proof/Laws/Ops.lean ====
section
/-! SUPPORT. Once for each shared operation, everything it can do: the guard of a faulted block, an answer, a fault, a
read-out, the flush; and then every way a command can end. -/

namespace Sys2Proof.Machine

/-! ### Capacities -/

@[simp] theorem capAdmits_inf (n : Nat) : capAdmits .inf n = true := rfl

@[simp] theorem capAdmits_bytes (k n : Nat) : capAdmits (.bytes k) n = true ↔ n ≤ k := decide_eq_true_iff

@[simp] theorem capAdmits_bytes_false (k n : Nat) : capAdmits (.bytes k) n = false ↔ k < n := by
  simp [capAdmits]

/-- The bound of a legal finite configuration. -/
theorem sizesFit_bytes (wb h p : Nat) :
    Config.sizesFit { wordBytes := wb, hdrCap := .bytes h, pkdCap := .bytes p } = true ↔
      4 * h + 4 ≤ 2 ^ (8 * wb) - 1 ∧ wb + p + h + 16 ≤ 2 ^ (8 * wb) - 1 := by
  rw [Config.sizesFit, Bool.and_eq_true, decide_eq_true_iff, decide_eq_true_iff, Config.cntW]

/-! ### The guard -/

theorem unlessFaulted_of_fault {s : State} (h : s.fault = true) (run : Out) :
    unlessFaulted s run = .next (s.respond (.fault s.cause)) := by
  simp [unlessFaulted, h, answer]

theorem unlessFaulted_of_run {s : State} (h : s.fault = false) (run : Out) : unlessFaulted s run = run := by
  simp [unlessFaulted, h]

/-- Under the guard a command answers the sticky fault, or does what it does. -/
theorem unlessFaulted_cases {s t : State} {run : Out} (h : unlessFaulted s run = .next t) :
    (s.fault = true ∧ t = s.respond (.fault s.cause)) ∨ (s.fault = false ∧ run = .next t) := by
  cases hf : s.fault with
  | true =>
    rw [unlessFaulted_of_fault hf] at h
    exact .inl ⟨rfl, by cases h; rfl⟩
  | false => exact .inr ⟨rfl, by rwa [unlessFaulted_of_run hf] at h⟩

@[simp] theorem answer_eq_next {r : Response} {s t : State} : answer r s = .next t ↔ t = s.respond r := by
  simp [answer, eq_comm]

@[simp] theorem raise_eq_next {c : Cause} {s t : State} : raise c s = .next t ↔ t = (s.latch c).respond (.fault c) := by
  simp [raise, eq_comm]

/-- A read-out answers a live byte or raises `IndexOutOfRange`. -/
theorem readOut_cases {sp : Space} {a : Nat} {s t : State} (h : readOut sp a s = .next t) :
    (s.len sp ≤ a ∧ t = (s.latch .indexOutOfRange).respond (.fault .indexOutOfRange)) ∨
    (a < s.len sp ∧ t = s.respond (.word (s.readByte sp a).toNat)) := by
  unfold readOut at h
  split at h
  · exact .inl ⟨‹_›, raise_eq_next.mp h⟩
  · exact .inr ⟨by omega, answer_eq_next.mp h⟩

/-! ### Staging and the flush -/

theorem freeSlot_some {n : Fin 5} {k : Fin 4} : freeSlot n = some k ↔ n.val = k.val := by
  unfold freeSlot
  split
  · simp [Fin.ext_iff]
  · simp
    omega

theorem freeSlot_none {n : Fin 5} : freeSlot n = none ↔ n.val = 4 := by
  unfold freeSlot
  split <;> simp <;> omega

/-- Staging a value in the first free register appends it to the staged values. -/
theorem staging_stage {s : State} {k : Fin 4} (h : s.slen.val = k.val) (x : Value) :
    (s.stage k x).staging = s.staging ++ [x] := by
  simp only [State.staging, State.stage_slen, State.stage_stg, Staging.toList, h]
  fin_cases k <;> simp [Staging.set]

/-- The staged value alone, right after a flush. -/
theorem staging_flush_stage (s : State) (x : Value) : (s.flush.stage 0 x).staging = [x] := by
  simp [State.staging, Staging.toList, Staging.set]

/-- With all four registers live the staged values are the group. -/
theorem staging_full {s : State} (h : s.slen.val = 4) : s.staging = s.stg.toList := by
  simp [State.staging, h, Staging.toList]

/-- The flush adds one header byte at the end of the live ones. -/
theorem headers_flush {s : State} (h : Memory.wf s.hdr = true) : s.flush.headers = s.headers ++ [groupHeader s.stg] := by
  have := Memory.range_writeBytes h s.hlen [groupHeader s.stg]
  simpa [State.headers, State.memRead, State.readByte] using this

/-- The flush adds the group's bytes at the end of the live ones. -/
theorem packed_flush {s : State} (h : Memory.wf s.pkd = true) : s.flush.packed = s.packed ++ groupBytes s.stg := by
  have := Memory.range_writeBytes h s.plen (groupBytes s.stg)
  simpa [State.packed, State.memRead, State.readByte] using this

/-- The flush keeps the canonical form of both memories. -/
theorem wf_flush {s : State} (hh : Memory.wf s.hdr = true) (hp : Memory.wf s.pkd = true) :
    Memory.wf s.flush.hdr = true ∧ Memory.wf s.flush.pkd = true := by
  simp [Memory.wf_writeBytes, hh, hp]

/-- Outside the header byte it writes, the flush leaves `HDR` as it was. -/
theorem readByte_flush_hdr {s : State} (h : Memory.wf s.hdr = true) {a : Nat} (ha : a ≠ s.hlen) :
    s.flush.readByte .hdr a = s.readByte .hdr a := by
  simp only [State.readByte, State.mem_hdr, State.flush_hdr, Memory.read_writeBytes h]
  split
  · rw [List.getD_eq_default _ _ (by simp; omega)]
  · rfl

/-- Outside the packed bytes it writes, the flush leaves `PKD` as it was. -/
theorem readByte_flush_pkd {s : State} (h : Memory.wf s.pkd = true) {a : Nat}
    (ha : a < s.plen ∨ s.plen + groupNeed s.stg ≤ a) : s.flush.readByte .pkd a = s.readByte .pkd a := by
  simp only [State.readByte, State.mem_pkd, State.flush_pkd, Memory.read_writeBytes h]
  split
  · rw [List.getD_eq_default _ _ (by simp; omega)]
  · rfl

/-! ### The live contents under updates that write no memory -/

theorem headers_congr {s t : State} (hl : t.hlen = s.hlen) (hm : t.hdr = s.hdr) : t.headers = s.headers := by
  simp [State.headers, State.memRead, State.readByte, hl, hm]

theorem packed_congr {s t : State} (hl : t.plen = s.plen) (hm : t.pkd = s.pkd) : t.packed = s.packed := by
  simp [State.packed, State.memRead, State.readByte, hl, hm]

theorem staging_congr {s t : State} (hl : t.slen = s.slen) (hg : t.stg = s.stg) : t.staging = s.staging := by
  simp [State.staging, hl, hg]

@[simp] theorem State.readByte_respond (r : Response) (s : State) (sp : Space) (a : Nat) :
    (s.respond r).readByte sp a = s.readByte sp a := by cases sp <;> rfl

@[simp] theorem State.readByte_latch (c : Cause) (s : State) (sp : Space) (a : Nat) :
    (s.latch c).readByte sp a = s.readByte sp a := by cases sp <;> rfl

@[simp] theorem State.readByte_clear (s : State) (sp : Space) (a : Nat) : s.clear.readByte sp a = s.readByte sp a := by
  cases sp <;> rfl

@[simp] theorem State.readByte_stage (k : Fin 4) (x : Value) (s : State) (sp : Space) (a : Nat) :
    (s.stage k x).readByte sp a = s.readByte sp a := by cases sp <;> rfl

/-- The abstract view looks at nothing but the codec's registers and memories. -/
theorem codec_congr {s t : State} (hc : t.count = s.count) (hh : t.headers = s.headers) (hp : t.packed = s.packed)
    (hs : t.staging = s.staging) : t.codec = s.codec := by
  simp [State.codec, hc, hh, hp, hs]

@[simp] theorem State.headers_respond (r : Response) (s : State) : (s.respond r).headers = s.headers := headers_congr rfl rfl
@[simp] theorem State.packed_respond (r : Response) (s : State) : (s.respond r).packed = s.packed := packed_congr rfl rfl
@[simp] theorem State.staging_respond (r : Response) (s : State) : (s.respond r).staging = s.staging :=
  staging_congr rfl rfl
@[simp] theorem State.headers_latch (c : Cause) (s : State) : (s.latch c).headers = s.headers := headers_congr rfl rfl
@[simp] theorem State.packed_latch (c : Cause) (s : State) : (s.latch c).packed = s.packed := packed_congr rfl rfl
@[simp] theorem State.staging_latch (c : Cause) (s : State) : (s.latch c).staging = s.staging := staging_congr rfl rfl
@[simp] theorem State.headers_unlatch (s : State) : s.unlatch.headers = s.headers := headers_congr rfl rfl
@[simp] theorem State.packed_unlatch (s : State) : s.unlatch.packed = s.packed := packed_congr rfl rfl
@[simp] theorem State.staging_unlatch (s : State) : s.unlatch.staging = s.staging := staging_congr rfl rfl
@[simp] theorem State.headers_stage (k : Fin 4) (x : Value) (s : State) : (s.stage k x).headers = s.headers :=
  headers_congr rfl rfl
@[simp] theorem State.packed_stage (k : Fin 4) (x : Value) (s : State) : (s.stage k x).packed = s.packed :=
  packed_congr rfl rfl
@[simp] theorem State.headers_withInbox (es : List HostEvent) (s : State) : (s.withInbox es).headers = s.headers :=
  headers_congr rfl rfl
@[simp] theorem State.packed_withInbox (es : List HostEvent) (s : State) : (s.withInbox es).packed = s.packed :=
  packed_congr rfl rfl
@[simp] theorem State.staging_withInbox (es : List HostEvent) (s : State) : (s.withInbox es).staging = s.staging :=
  staging_congr rfl rfl
@[simp] theorem State.headers_clear (s : State) : s.clear.headers = [] := rfl
@[simp] theorem State.packed_clear (s : State) : s.clear.packed = [] := rfl
@[simp] theorem State.staging_clear (s : State) : s.clear.staging = [] := rfl

/-! ### Every way a command can end -/

/-- The response of a command that changes nothing. -/
inductive IsReading : Instr → State → Response → Prop
  | decode {s q} (h : dec s.headers s.packed s.staging = some q) : IsReading .decode s (.values q)
  | count {s} : IsReading .count s (.word s.count)
  | footprint {s} : IsReading .footprint s (.word s.footprint)
  | width {s} (x : Value) : IsReading (.width x) s (.word (width x))
  | rdhdr {s} (a : Arg) (h : a.toNat < s.hlen) : IsReading (.rdhdr a) s (.word (s.readByte .hdr a.toNat).toNat)
  | rdpkd {s} (a : Arg) (h : a.toNat < s.plen) : IsReading (.rdpkd a) s (.word (s.readByte .pkd a.toNat).toNat)
  | rdstg {s} (a : Arg) (h : a.toNat < s.slen.val) : IsReading (.rdstg a) s (.word (s.stg.reg a.toNat).toNat)
  | hlen {s} : IsReading .hlen s (.word s.hlen)
  | plen {s} : IsReading .plen s (.word s.plen)
  | slen {s} : IsReading .slen s (.word s.slen.val)

/-- When a command raises a fault in a block that has not faulted. -/
inductive Raises : Instr → State → Cause → Prop
  | decode {s} (h : dec s.headers s.packed s.staging = none) : Raises .decode s .decodeOutOfRange
  | add {s} (x : Value) (h4 : s.slen.val = 4) (h : s.fits = false) : Raises (.add x) s .capacityOverflow
  | rdhdr {s} (a : Arg) (h : s.hlen ≤ a.toNat) : Raises (.rdhdr a) s .indexOutOfRange
  | rdpkd {s} (a : Arg) (h : s.plen ≤ a.toNat) : Raises (.rdpkd a) s .indexOutOfRange
  | rdstg {s} (a : Arg) (h : s.slen.val ≤ a.toNat) : Raises (.rdstg a) s .indexOutOfRange

/-- No command raises the cause of a reserved word (30_encoding.md R53). -/
theorem raises_ne_illegalCommand {i : Instr} {s : State} {c : Cause} (h : Raises i s c) : c ≠ .illegalCommand := by
  cases h <;> simp

/-- What a command does: the state it leaves. -/
inductive Effect (i : Instr) (s : State) : State → Prop
  /-- The block has faulted before. -/
  | sticky (h : s.fault = true) : Effect i s (s.respond (.fault s.cause))
  /-- The command raises a fault. -/
  | raised (c : Cause) (h : s.fault = false) (hr : Raises i s c) : Effect i s ((s.latch c).respond (.fault c))
  /-- The command reads. -/
  | read (r : Response) (h : s.fault = false) (hr : IsReading i s r) : Effect i s (s.respond r)
  /-- `NEW`. -/
  | cleared (h : s.fault = false) (hi : i = .new) : Effect i s (s.clear.respond .ok)
  /-- `ADD` with a free register. -/
  | staged (x : Value) (k : Fin 4) (h : s.fault = false) (hi : i = .add x) (hk : s.slen.val = k.val) :
    Effect i s ((s.stage k x).respond .ok)
  /-- `ADD` with the flush first. -/
  | flushed (x : Value) (h : s.fault = false) (hi : i = .add x) (h4 : s.slen.val = 4) (hf : s.fits = true) :
    Effect i s ((s.flush.stage 0 x).respond .ok)

theorem execAdd_effect {x : Value} {s t : State} (h : execAdd x s = .next t) : Effect (.add x) s t := by
  rcases unlessFaulted_cases h with ⟨hf, rfl⟩ | ⟨hf, h⟩
  · exact .sticky hf
  split at h
  · obtain rfl := answer_eq_next.mp h
    exact .staged x _ hf rfl (freeSlot_some.mp ‹_›)
  · split at h
    · obtain rfl := answer_eq_next.mp h
      exact .flushed x hf rfl (freeSlot_none.mp ‹_›) ‹_›
    · obtain rfl := raise_eq_next.mp h
      exact .raised _ hf (.add x (freeSlot_none.mp ‹_›) (Bool.eq_false_iff.mpr ‹_›))

theorem execDecode_effect {s t : State} (h : execDecode s = .next t) : Effect .decode s t := by
  rcases unlessFaulted_cases h with ⟨hf, rfl⟩ | ⟨hf, h⟩
  · exact .sticky hf
  split at h
  · obtain rfl := answer_eq_next.mp h
    exact .read _ hf (.decode ‹_›)
  · obtain rfl := raise_eq_next.mp h
    exact .raised _ hf (.decode ‹_›)

theorem execRdstg_effect {a : Arg} {s t : State} (h : execRdstg a s = .next t) : Effect (.rdstg a) s t := by
  rcases unlessFaulted_cases h with ⟨hf, rfl⟩ | ⟨hf, h⟩
  · exact .sticky hf
  split at h
  · obtain rfl := raise_eq_next.mp h
    exact .raised _ hf (.rdstg a ‹_›)
  · obtain rfl := answer_eq_next.mp h
    exact .read _ hf (.rdstg a (Nat.lt_of_not_le ‹_›))

/-- A command that only answers. -/
theorem answer_effect {i : Instr} {r : Response} {s t : State} (hr : IsReading i s r)
    (h : unlessFaulted s (answer r s) = .next t) : Effect i s t := by
  rcases unlessFaulted_cases h with ⟨hf, rfl⟩ | ⟨hf, h⟩
  · exact .sticky hf
  · obtain rfl := answer_eq_next.mp h
    exact .read _ hf hr

/-- Every way a command can end. -/
theorem exec_effect {i : Instr} {s t : State} (h : exec i s = .next t) : Effect i s t := by
  cases i with
  | new =>
    rcases unlessFaulted_cases h with ⟨hf, rfl⟩ | ⟨hf, h⟩
    · exact .sticky hf
    · obtain rfl := answer_eq_next.mp h
      exact .cleared hf rfl
  | add x => exact execAdd_effect h
  | decode => exact execDecode_effect h
  | count => exact answer_effect .count h
  | footprint => exact answer_effect .footprint h
  | width x => exact answer_effect (.width x) h
  | rdhdr a =>
    rcases unlessFaulted_cases h with ⟨hf, rfl⟩ | ⟨hf, h⟩
    · exact .sticky hf
    rcases readOut_cases h with ⟨ha, rfl⟩ | ⟨ha, rfl⟩
    · exact .raised _ hf (.rdhdr a ha)
    · exact .read _ hf (.rdhdr a ha)
  | rdpkd a =>
    rcases unlessFaulted_cases h with ⟨hf, rfl⟩ | ⟨hf, h⟩
    · exact .sticky hf
    rcases readOut_cases h with ⟨ha, rfl⟩ | ⟨ha, rfl⟩
    · exact .raised _ hf (.rdpkd a ha)
    · exact .read _ hf (.rdpkd a ha)
  | rdstg a => exact execRdstg_effect h
  | hlen => exact answer_effect .hlen h
  | plen => exact answer_effect .plen h
  | slen => exact answer_effect .slen h

/-- What a step takes from the host: nothing, a command word it performs, or a reset. -/
theorem step_cases {s t : State} (h : step s = .next t) :
    s.cfg.legal = true ∧
    ((s.inbox = [] ∧ t = s) ∨
      (∃ w es, s.inbox = .command w :: es ∧ runWord w (s.withInbox es) = .next t) ∨
      (∃ es, s.inbox = .reset :: es ∧ t = (s.withInbox es).resetBlock)) := by
  unfold step stepBlock at h
  split at h
  · refine ⟨‹_›, ?_⟩
    split at h
    · exact .inl ⟨‹_›, by cases h; rfl⟩
    · rename_i e es he
      cases e with
      | command w => exact .inr (.inl ⟨w, es, he, h⟩)
      | reset => exact .inr (.inr ⟨es, he, by cases h; rfl⟩)
  · cases h

/-- A word is performed as the command it spells, or raises `IllegalCommand`. -/
theorem runWord_cases {w : CmdWord} {s t : State} (h : runWord w s = .next t) :
    (∃ i, decode w = .ok i ∧ exec i s = .next t) ∨
    ((∃ op, decode w = .error (.reservedOpcode op)) ∧
      ((s.fault = true ∧ t = s.respond (.fault s.cause)) ∨
        (s.fault = false ∧ t = (s.latch .illegalCommand).respond (.fault .illegalCommand)))) := by
  unfold runWord at h
  split at h
  · exact .inl ⟨_, ‹_›, h⟩
  · refine .inr ⟨⟨_, ‹_›⟩, ?_⟩
    rcases unlessFaulted_cases h with ⟨hf, rfl⟩ | ⟨hf, h⟩
    · exact .inl ⟨hf, rfl⟩
    · exact .inr ⟨hf, raise_eq_next.mp h⟩

end Sys2Proof.Machine
end

