-- ==== Sys2Proof/Laws/PerInstr.lean ====
section
/-! SUPPORT. What holds of every command as syntax: its word carries the opcode of its row and its operand, and matches
that row of the opcode map (30_encoding.md R50, R52). One lemma per constructor. -/

namespace Sys2Proof

/-- A word as a number: the opcode above the operand. -/
theorem toNat_cmdWord (op : Opcode) (a : Arg) : (cmdWord op a).toNat = op.toNat * 2 ^ 32 + a.toNat :=
  (BitVec.toNat_append op a).trans (by rw [← Nat.shiftLeft_add_eq_or_of_lt a.isLt, Nat.shiftLeft_eq])

theorem toNat_opOf (w : CmdWord) : (opOf w).toNat = w.toNat / 2 ^ 32 := by
  have := w.isLt
  simp only [opOf, BitVec.extractLsb'_toNat, Nat.shiftRight_eq_div_pow]
  omega

theorem toNat_argOf (w : CmdWord) : (argOf w).toNat = w.toNat % 2 ^ 32 := by
  simp [argOf, BitVec.extractLsb'_toNat]

@[simp] theorem opOf_cmdWord (op : Opcode) (a : Arg) : opOf (cmdWord op a) = op := by
  have := a.isLt
  apply BitVec.eq_of_toNat_eq
  rw [toNat_opOf, toNat_cmdWord]
  omega

@[simp] theorem argOf_cmdWord (op : Opcode) (a : Arg) : argOf (cmdWord op a) = a := by
  have := a.isLt
  apply BitVec.eq_of_toNat_eq
  rw [toNat_argOf, toNat_cmdWord]
  omega

/-- A word is its two fields. -/
theorem cmdWord_opOf_argOf (w : CmdWord) : cmdWord (opOf w) (argOf w) = w := by
  apply BitVec.eq_of_toNat_eq
  rw [toNat_cmdWord, toNat_opOf, toNat_argOf]
  omega

namespace Laws.RowMatch

/-- The word of a command has its row's opcode, its operand, and the row's match under the mask. -/
def Statement (i : Instr) : Prop :=
  opOf (encode i) = i.mnemonic.opcode ∧ argOf (encode i) = i.arg ∧
    encode i = i.mnemonic.matchWord ||| i.arg.setWidth 36

/-- What joins the fields of a word is a bitwise or. -/
theorem cmdWord_eq_or (op : Opcode) (a : Arg) : cmdWord op a = cmdWord op 0 ||| a.setWidth 36 := by
  have ha := a.isLt
  apply BitVec.eq_of_toNat_eq
  rw [BitVec.toNat_or, toNat_cmdWord, toNat_cmdWord, BitVec.toNat_setWidth, Nat.mod_eq_of_lt (by omega),
    show (0 : Arg).toNat = 0 by rfl, Nat.add_zero, Nat.mul_comm, Nat.two_pow_add_eq_or_of_lt ha]

/-- The statement follows from the row's match being the word of its opcode with operand 0. -/
theorem of_matchWord {i : Instr} (h : cmdWord i.mnemonic.opcode 0 = i.mnemonic.matchWord) : Statement i :=
  ⟨opOf_cmdWord _ _, argOf_cmdWord _ _, by rw [encode, cmdWord_eq_or, h]⟩

theorem new : Statement .new := of_matchWord (by decide)
theorem add (x : Value) : Statement (.add x) := of_matchWord (by simp only [Instr.mnemonic]; decide)
theorem decode : Statement .decode := of_matchWord (by decide)
theorem count : Statement .count := of_matchWord (by decide)
theorem footprint : Statement .footprint := of_matchWord (by decide)
theorem width (x : Value) : Statement (.width x) := of_matchWord (by simp only [Instr.mnemonic]; decide)
theorem rdhdr (a : Arg) : Statement (.rdhdr a) := of_matchWord (by simp only [Instr.mnemonic]; decide)
theorem rdpkd (a : Arg) : Statement (.rdpkd a) := of_matchWord (by simp only [Instr.mnemonic]; decide)
theorem rdstg (i : Arg) : Statement (.rdstg i) := of_matchWord (by simp only [Instr.mnemonic]; decide)
theorem hlen : Statement .hlen := of_matchWord (by decide)
theorem plen : Statement .plen := of_matchWord (by decide)
theorem slen : Statement .slen := of_matchWord (by decide)

end Laws.RowMatch

end Sys2Proof
end

