-- ==== Sys2Proof/Laws/Runs.lean ====
section
/-! SUPPORT. What runs of commands do: a fault lasts, and the read-only commands leave all but the responses. -/

namespace Sys2Proof.Machine

@[simp] theorem runInstrs_nil (s : State) : runInstrs [] s = .next s := rfl

/-- A run of one command more ends where the rest of it ends from the state the first command leaves. -/
theorem runInstrs_cons_iff {i : Instr} {is : List Instr} {s t : State} :
    runInstrs (i :: is) s = .next t ↔ ∃ u, exec i s = .next u ∧ runInstrs is u = .next t := by
  simp only [runInstrs]
  cases exec i s <;> simp

/-- No command leaves a fault (60_exceptions.md R126). -/
theorem fault_of_exec {i : Instr} {s t : State} (h : exec i s = .next t) (hs : s.fault = true) : t.fault = true := by
  cases exec_effect h <;> simp_all

/-- No run of commands leaves a fault. -/
theorem fault_of_run {is : List Instr} {s t : State} (h : runInstrs is s = .next t) (hs : s.fault = true) : t.fault = true := by
  induction is generalizing s with
  | nil => cases h; exact hs
  | cons i is ih =>
    obtain ⟨u, hu, hr⟩ := runInstrs_cons_iff.mp h
    exact ih hr (fault_of_exec hu hs)

/-- A read-only command that leaves no fault changes the responses alone. -/
theorem exec_readOnly {i : Instr} {s t : State} (hi : ReadOnly i) (h : exec i s = .next t) (ht : t.fault = false) :
    t = { s with responses := t.responses } := by
  cases exec_effect h with
  | sticky _ => rfl
  | raised c _ _ => simp at ht
  | read r _ _ => rfl
  | cleared _ e => exact absurd e hi.1
  | staged x k _ e _ => exact absurd e (hi.2 x)
  | flushed x _ e _ _ => exact absurd e (hi.2 x)

/-- A run of read-only commands that leaves no fault changes the responses alone. -/
theorem run_readOnly {is : List Instr} {s t : State} (hi : ∀ i ∈ is, ReadOnly i) (h : runInstrs is s = .next t)
    (ht : t.fault = false) : t = { s with responses := t.responses } := by
  induction is generalizing s with
  | nil => cases h; rfl
  | cons i is ih =>
    obtain ⟨u, hu, hr⟩ := runInstrs_cons_iff.mp h
    have huf : u.fault = false := by
      by_contra hc
      simpa [ht] using fault_of_run hr (by simpa using hc)
    rw [ih (fun j hj => hi j (List.mem_cons_of_mem _ hj)) hr, exec_readOnly (hi i List.mem_cons_self) hu huf]

end Sys2Proof.Machine
end

