-- ==== Sys2Proof/Tests/Slice0.lean ====
section
/-! SUPPORT. The model's own tests. Expected values come from 95_test_vectors.md or from a rule computed by hand; each
comment names its source. The theorems `witness_<Name>` show states and operands that meet the hypotheses of the obligation
of that name, one for each clause. -/

namespace Sys2Proof.Tests

open Sys2Proof Sys2Proof.Machine

/-! ### Helpers -/

/-- The next state an outcome holds. -/
def nextOf : Out → Option State
  | .next s => some s
  | .fault _ => none
  | .refused _ => none

/-- An outcome whose next state has a property is a next state with it. -/
theorem exists_next {o : Out} {p : State → Bool} (h : (nextOf o).any p = true) : ∃ t, o = .next t ∧ p t = true := by
  cases o with
  | next s => exact ⟨s, rfl, h⟩
  | fault r => cases h
  | refused r => cases h

/-- The response given last by the state an outcome holds. -/
def lastResponse (o : Out) : Option Response := (nextOf o).bind fun s => s.responses.getLast?

/-- A block with some values staged, right after reset (95_test_vectors.md S4). -/
def staging (c : Config) (n : Fin 5) (g : Staging) : State :=
  { State.resetWith c with count := n.val, slen := n, stg := g }

/-- The values of Scenario C: widths 1, 2, 3, 4. -/
def groupC : Staging := { r0 := 5, r1 := 300, r2 := 70000, r3 := 16777300 }

/-- The state after Scenario C (95_test_vectors.md S4). -/
def scenarioC : State := staging Config.default 4 groupC

/-- The memory that holds bytes from address 0 up. -/
def memOf (bs : List Byte) : Memory := Memory.writeBytes [] 0 bs

/-- The state after Scenario D with `x5 = 7` (95_test_vectors.md S5). -/
def scenarioD : State :=
  { staging Config.default 1 { groupC with r0 := 7 } with
    count := 5, hlen := 1, plen := 10
    hdr := memOf [0x1B], pkd := memOf [0x05, 0x01, 0x2C, 0x01, 0x11, 0x70, 0x01, 0x00, 0x00, 0x54] }

/-- A finite configuration. -/
def finite (h p : Nat) : Config := { wordBytes := 8, hdrCap := .bytes h, pkdCap := .bytes p }

/-- A faulted block. -/
def faulted (s : State) : State := s.latch .illegalCommand

/-- A block the host has still something to do to. -/
def withHost (s : State) (es : List HostEvent) : State := s.withInbox es

/-- An unreachable state: the headers need more bytes than `PLEN` (10_state.md R25). -/
def corrupted : State := { State.reset with count := 4, hlen := 1, plen := 3, hdr := memOf [0xFF], pkd := memOf [1, 2, 3] }

/-- The state after Scenario D with other contents in every dead place. -/
def scenarioDead : State :=
  { scenarioD with
    stg := { r0 := 7, r1 := 1, r2 := 2, r3 := 3 }
    hdr := memOf [0x1B, 0x77], pkd := memOf [0x05, 0x01, 0x2C, 0x01, 0x11, 0x70, 0x01, 0x00, 0x00, 0x54, 0x99] }

theorem sound_scenarioC : Sound scenarioC := by constructor <;> decide

theorem sound_scenarioD : Sound scenarioD := by constructor <;> decide

/-! ### Well-formedness -/

/-- 00_scope.md R5, R6: an ill-formed configuration for each check, and the last legal one beside it. With `WORD_BYTES = 1`
the bound is 255: `4 * 62 + 4 = 252`, `4 * 63 + 4 = 256`; `1 + 176 + 62 + 16 = 255`. -/
theorem test_config_legal :
    Config.legal { wordBytes := 0, hdrCap := .inf, pkdCap := .inf } = false ∧
    Config.legal { wordBytes := 1, hdrCap := .bytes 63, pkdCap := .bytes 0 } = false ∧
    Config.legal { wordBytes := 1, hdrCap := .bytes 62, pkdCap := .bytes 177 } = false ∧
    Config.legal { wordBytes := 1, hdrCap := .bytes 62, pkdCap := .bytes 176 } = true ∧
    Config.legal { wordBytes := 1, hdrCap := .bytes 63, pkdCap := .inf } = true ∧
    Config.legal Config.default = true := by decide

/-- 30_encoding.md R65: an ill-formed line for each check. -/
theorem test_line_wf :
    Line.wf { mnemonic := .add, operand := none } = false ∧
    Line.wf { mnemonic := .new, operand := some 0 } = false ∧
    Line.wf { mnemonic := .add, operand := some (2 ^ 32) } = false ∧
    Line.wf { mnemonic := .add, operand := some (2 ^ 32 - 1) } = true ∧
    Line.wf { mnemonic := .new, operand := none } = true := by decide

/-- The canonical form refuses an address out of order, a repeated address, and a byte an unlisted address reads as. -/
theorem test_memory_wf :
    Memory.wf [(3, 1), (2, 1)] = false ∧ Memory.wf [(2, 1), (2, 1)] = false ∧ Memory.wf [(2, 0)] = false ∧
    Memory.wf [(2, 1), (3, 1)] = true := by decide

/-! ### Decoding, each constructor by a word written out from 30_encoding.md R50 and R52 -/

theorem test_decode_new : decode 0b0001_00000000000000000000000000000000 = .ok .new := by decide
theorem test_decode_add : decode 0b0010_10000000000000000000000000000001 = .ok (.add 0x80000001) := by decide
theorem test_decode_decode : decode 0b0011_00000000000000000000000000000000 = .ok .decode := by decide
theorem test_decode_count : decode 0b0100_00000000000000000000000000000000 = .ok .count := by decide
theorem test_decode_footprint : decode 0b0101_00000000000000000000000000000000 = .ok .footprint := by decide
theorem test_decode_width : decode 0b0110_00000000000000010001000101110000 = .ok (.width 70000) := by decide
theorem test_decode_rdhdr : decode 0b0111_00000000000000000000000000000001 = .ok (.rdhdr 1) := by decide
theorem test_decode_rdpkd : decode 0b1000_00000000000000000000000000001001 = .ok (.rdpkd 9) := by decide
theorem test_decode_rdstg : decode 0b1001_00000000000000000000000000000100 = .ok (.rdstg 4) := by decide
theorem test_decode_hlen : decode 0b1010_00000000000000000000000000000000 = .ok .hlen := by decide
theorem test_decode_plen : decode 0b1011_00000000000000000000000000000000 = .ok .plen := by decide
theorem test_decode_slen : decode 0b1100_00000000000000000000000000000000 = .ok .slen := by decide

/-- 30_encoding.md R53: the four reserved opcodes, whatever `arg` holds (95_test_vectors.md V7). -/
theorem test_decode_reserved :
    decode 0x000000000 = .error (.reservedOpcode 0x0) ∧ decode 0xD00000000 = .error (.reservedOpcode 0xD) ∧
    decode 0xE00000001 = .error (.reservedOpcode 0xE) ∧ decode 0xF12345678 = .error (.reservedOpcode 0xF) := by decide

/-- 95_test_vectors.md P1, P2: words of listings. -/
theorem test_encode :
    encode (.add 300) = 0x20000012C ∧ encode (.add 16777300) = 0x201000054 ∧ encode (.width 70000) = 0x600011170 ∧
    encode (.rdpkd 9) = 0x800000009 ∧ encode .decode = 0x300000000 ∧ encode .slen = 0xC00000000 := by decide

/-- A word of the opcode table is the word itself. -/
theorem test_decodeTableWord :
    decodeTableWord 40 0x100000000 = some .new ∧ decodeTableWord 36 0x2FFFFFFFF = some (.add 0xFFFFFFFF) ∧
    decodeTableWord 40 0xC00000000 = some .slen ∧ decodeTableWord 40 0 = none := by decide

/-- The word placed is the first the block performs after reset. -/
theorem test_withFetchWord :
    lastResponse (step (State.reset.withFetchWord 40 0x200000005)) = some .ok ∧
    lastResponse (step (State.reset.withFetchWord 40 0x500000000)) = some (.word 8) ∧
    lastResponse (step (State.reset.withFetchWord 40 0x700000000)) = some (.fault .indexOutOfRange) := by decide

/-! ### Data forms -/

/-- 95_test_vectors.md S1 and V1. -/
theorem test_width :
    [0x0, 0x80, 0xFF, 0x100, 0xFFFF, 0x10000, 0xFFFFFF, 0x1000000, 0x80000000, 0xFFFFFFFF].map width =
      [1, 1, 1, 2, 2, 3, 3, 4, 4, 4] := by decide

/-- 95_test_vectors.md V2: position 0 is in the top bits. -/
theorem test_header :
    hdrByte 1 2 3 4 = 0x1B ∧ hdrByte 4 3 2 1 = 0xE4 ∧ hdrByte 4 1 1 1 = 0xC0 ∧ hdrByte 1 1 1 4 = 0x03 ∧
    hdrByte 2 1 4 3 = 0x4E ∧ hdrByte 4 1 2 3 = 0xC6 ∧ headerWidths 0xE4 = [4, 3, 2, 1] := by decide

/-- 95_test_vectors.md V3: big-endian, and non-minimal input to `unbe`. -/
theorem test_bytes :
    be 0xABCD 2 = [0xAB, 0xCD] ∧ be 0x123456 3 = [0x12, 0x34, 0x56] ∧ be 0x12345678 4 = [0x12, 0x34, 0x56, 0x78] ∧
    unbe [0xAB, 0xCD] = 0xABCD ∧ unbe [0x12, 0x34, 0x56, 0x78] = 0x12345678 ∧ unbe [0, 5] = 5 ∧ unbe [0, 1, 0] = 0x100 := by
  decide

/-- 95_test_vectors.md V5: the decode function on unreachable input. -/
theorem test_dec :
    dec [0xE4] [0x01, 0x00, 0x00, 0x54, 0x01, 0x11, 0x70, 0x01, 0x2C, 0x05] [] = some [16777300, 70000, 300, 5] ∧
    dec [0x1B] [0x05, 0x01, 0x2C, 0x01, 0x11, 0x70, 0x01, 0x00, 0x00] [] = none ∧
    dec [0x00] [0x01, 0x02, 0x03] [] = none ∧ dec [0x00] [] [5] = none ∧
    dec [0x40] [0x00, 0x05, 0x06, 0x07, 0x08, 0x09, 0x09] [3] = some [5, 6, 7, 8, 3] := by decide

/-- A read after a write, and a write of the byte an unlisted address reads as removes the entry. -/
theorem test_memory :
    Memory.write (memOf [1, 2, 3]) 1 0 = [(0, 1), (2, 3)] ∧ Memory.read (memOf [1, 2, 3]) 1 = 2 ∧
    Memory.write [(5, 1)] 3 7 = [(3, 7), (5, 1)] := by decide

/-! ### Commands, at most two each -/

/-- 41_encoder.md R75: `NEW` empties the lengths and writes no storage. -/
theorem test_new :
    (nextOf (exec .new scenarioD)).map (fun t => (t.count, t.hlen, t.plen, t.slen.val)) = some (0, 0, 0, 0) ∧
    (nextOf (exec .new scenarioD)).map (fun t => (t.stg.r0, t.responses)) = some (7, [.ok]) := by decide

/-- 95_test_vectors.md V8: `NEW` does not clear a fault. -/
theorem test_new_faulted : lastResponse (exec .new (faulted scenarioD)) = some (.fault .illegalCommand) := by decide

/-- 95_test_vectors.md S5: the fifth value flushes the first four. -/
theorem test_add_flushes :
    (nextOf (exec (.add 7) scenarioC)).map (fun t => (t.codec.headers, t.codec.packed, t.staging, t.count)) =
      some ([0x1B], [0x05, 0x01, 0x2C, 0x01, 0x11, 0x70, 0x01, 0x00, 0x00, 0x54], [7], 5) := by decide

/-- 41_encoder.md R81: the fourth value does not flush. -/
theorem test_add_lags :
    (nextOf (exec (.add 16777300) (staging Config.default 3 groupC))).map (fun t => (t.hlen, t.plen, t.slen.val)) =
      some (0, 0, 4) := by decide

/-- 95_test_vectors.md S5: everything added, in order. -/
theorem test_decode_values :
    lastResponse (exec .decode scenarioD) = some (.values [5, 300, 70000, 16777300, 7]) := by decide

/-- 42_decoder.md R93, R95: no value is delivered where one is out of range. -/
theorem test_decode_fault : lastResponse (exec .decode corrupted) = some (.fault .decodeOutOfRange) := by decide

/-- 95_test_vectors.md V6, in the state after Scenario D. -/
theorem test_count : lastResponse (exec .count scenarioD) = some (.word 5) := by decide
theorem test_footprint : lastResponse (exec .footprint scenarioD) = some (.word 23) := by decide
theorem test_footprint_four_bytes :
    lastResponse (exec .footprint { scenarioD with cfg := { Config.default with wordBytes := 4 } }) = some (.word 19) := by
  decide
theorem test_width_command : lastResponse (exec (.width 70000) scenarioD) = some (.word 3) := by decide
theorem test_hlen : lastResponse (exec .hlen scenarioD) = some (.word 1) := by decide
theorem test_plen : lastResponse (exec .plen scenarioD) = some (.word 10) := by decide
theorem test_slen : lastResponse (exec .slen scenarioD) = some (.word 1) := by decide
theorem test_rdhdr : lastResponse (exec (.rdhdr 0) scenarioD) = some (.word 0x1B) := by decide
theorem test_rdhdr_out : lastResponse (exec (.rdhdr 0xFFFFFFFF) scenarioD) = some (.fault .indexOutOfRange) := by decide
theorem test_rdpkd : lastResponse (exec (.rdpkd 9) scenarioD) = some (.word 0x54) := by decide
theorem test_rdpkd_out : lastResponse (exec (.rdpkd 10) scenarioD) = some (.fault .indexOutOfRange) := by decide
theorem test_rdstg : lastResponse (exec (.rdstg 0) scenarioD) = some (.word 7) := by decide
theorem test_rdstg_out : lastResponse (exec (.rdstg 1) scenarioD) = some (.fault .indexOutOfRange) := by decide

/-- 95_test_vectors.md V8: exact fit and one byte short, and no check below four staged values. -/
theorem test_capacity :
    lastResponse (exec (.add 5) (staging (finite 1 10) 4 groupC)) = some .ok ∧
    lastResponse (exec (.add 5) (staging (finite 1 9) 4 groupC)) = some (.fault .capacityOverflow) ∧
    lastResponse (exec (.add 5) (staging (finite 0 99) 4 groupC)) = some (.fault .capacityOverflow) ∧
    lastResponse (exec (.add 5) (staging (finite 0 0) 3 groupC)) = some .ok := by decide

/-- 95_test_vectors.md V8: an illegal word keeps the codec state, and a faulted block keeps its first cause. -/
theorem test_illegal_word :
    (nextOf (step (withHost scenarioD [.command 0]))).map (fun t => (t.status, t.count, t.staging)) =
      some (0b1011, 5, [7]) ∧
    (nextOf (step (withHost (scenarioD.latch .indexOutOfRange) [.command 0xF00000000]))).map State.status =
      some 0b1100 := by decide

/-- 95_test_vectors.md P3: reset empties a faulted block and gives no response. -/
theorem test_reset :
    (nextOf (step (withHost (faulted scenarioD) [.reset]))).map (fun t => (t.status, t.count, t.hlen, t.responses)) =
      some (0b0000, 0, 0, []) := by decide

/-- 95_test_vectors.md P1: the beats of a `DECODE` response. -/
theorem test_beats :
    (Response.values [5, 7]).beats =
      [{ kind := .value, last := false, data := 5 }, { kind := .value, last := false, data := 7 },
        { kind := .ok, last := true, data := 0 }] := by decide

/-- 30_encoding.md R65, R66: lines of a listing, with a comment, in both number forms, and `BUILD`, where the second
blank before the first operand is the model's choice (log entry 9). -/
theorem test_listing :
    assembleLine ['A', 'D', 'D', ' ', '3', '0', '0', ' ', ';', 'x'] = some [0x20000012C] ∧
    assembleLine ['R', 'D', 'P', 'K', 'D', ' ', '0', 'x', '1', 'F'] = some [0x80000001F] ∧
    assembleLine ['D', 'E', 'C', 'O', 'D', 'E'] = some [0x300000000] ∧
    assembleLine ['B', 'U', 'I', 'L', 'D', ' ', '1', ',', ' ', '2'] = some [0x100000000, 0x200000001, 0x200000002] ∧
    assembleLine ['B', 'U', 'I', 'L', 'D', ' ', ' ', '1'] = some [0x100000000, 0x200000001] ∧
    assembleLine ['B', 'U', 'I', 'L', 'D', ' ', ' ', ' ', '1'] = none ∧
    assembleLine ['A', 'D', 'D'] = none ∧ assembleLine ['a', 'd', 'd', ' ', '1'] = none := by decide

/-! ### The two views -/

/-- 10_state.md R28: the abstract view does the same flush. -/
theorem test_abstract_add :
    (scenarioC.view.perform Config.default (.add 7)).1 = scenarioD.view := by decide

/-! ### Witnesses for the hypotheses of the obligations -/

theorem witness_DecodeAndEncodeAgree :
    decode 0x1FFFFFFFF = .ok .new ∧ decode 0x20000012C = .ok (.add 300) := by decide

theorem witness_ReservedWordsRaiseIllegalCommand :
    (withHost scenarioD [.command 0xFFFFFFFFF]).cfg.legal = true ∧ scenarioD.fault = false ∧
    (withHost scenarioD [.command 0xFFFFFFFFF]).inbox = [.command 0xFFFFFFFFF] ∧
    [0x000000000#36, 0x0FFFFFFFF, 0xD00000000, 0xEFFFFFFFF, 0xFFFFFFFFF].map (fun w => w.extractLsb' 32 4) =
      [0x0, 0x0, 0xD, 0xE, 0xF] ∧
    [0x100000000#36, 0xCFFFFFFFF].map (fun w => w.extractLsb' 32 4) = [0x1, 0xC] ∧
    (withHost scenarioD [.command 0xCFFFFFFFF]).inbox = [.command 0xCFFFFFFFF] := by decide

theorem witness_StepRunsTheDecodedCommand :
    (withHost scenarioD [.command 0x300000000]).cfg.legal = true ∧
    (withHost scenarioD [.command 0x300000000]).inbox = .command 0x300000000 :: [] ∧
    decode 0x300000000 = .ok .decode := by decide

theorem witness_IdleBlockDoesNotChange : scenarioD.cfg.legal = true ∧ scenarioD.inbox = [] := by decide

theorem witness_IllegalConfigurationGetsNoMeaning :
    (State.resetWith { wordBytes := 1, hdrCap := .bytes 63, pkdCap := .bytes 0 }).cfg.legal = false := by decide

theorem witness_ResetEventEmptiesTheBlock :
    (withHost (faulted scenarioD) [.reset, .command 0x400000000]).cfg.legal = true ∧
    (withHost (faulted scenarioD) [.reset, .command 0x400000000]).inbox = [.reset, .command 0x400000000] ∧
    decode 0x400000000 = .ok .count ∧ decode 0xD00000000 = .error (.reservedOpcode 0xD) ∧
    (∀ es, (withHost (faulted scenarioD) [.command 0x400000000]).inbox ≠ .reset :: es) ∧
    ∃ t, step (withHost (faulted scenarioD) [.command 0x400000000]) = .next t ∧ t.fault = true := by
  refine ⟨by decide, by decide, by decide, by decide, ?_, ?_⟩
  · intro es h
    cases h
  · exact exists_next (p := fun t => t.fault) (by decide)

theorem witness_ResetAndNewCompared :
    scenarioD.cfg.legal = true ∧ scenarioD.fault = false ∧ (faulted scenarioD).fault = true := by decide

theorem witness_EveryStepKeepsSoundness : Sound scenarioC ∧ Sound (withHost scenarioC [.command 0x200000007]) ∧
    ∃ t, step (withHost scenarioC [.command 0x200000007]) = .next t ∧ decide (t.hlen = 1) = true :=
  ⟨sound_scenarioC, by constructor <;> decide, exists_next (by decide)⟩

theorem witness_EveryStepKeepsTheCount :
    scenarioC.count = 4 * scenarioC.hlen + scenarioC.slen.val ∧
    ∃ t, step (withHost scenarioC [.command 0x200000007]) = .next t ∧ decide (t.count = 5) = true :=
  ⟨by decide, exists_next (by decide)⟩

theorem witness_SoundStateConsequences :
    (Sound scenarioD ∧ scenarioD.fault = false ∧ 1 ≤ scenarioD.count) ∧ (Sound State.reset ∧ State.reset.count = 0) :=
  ⟨⟨sound_scenarioD, by decide, by decide⟩, by constructor <;> decide, by decide⟩

theorem witness_SizesFitTheWord :
    Sound (staging { wordBytes := 1, hdrCap := .bytes 62, pkdCap := .bytes 176 } 4 groupC) ∧
    Config.legal { wordBytes := 1, hdrCap := .bytes 62, pkdCap := .bytes 176 } = true :=
  ⟨by constructor <;> decide, by decide⟩

theorem witness_FaultedBlockAnswersItsCause :
    (withHost (faulted scenarioD) [.command 0xF00000000]).cfg.legal = true ∧
    (withHost (faulted scenarioD) [.command 0xF00000000]).fault = true ∧
    (withHost (faulted scenarioD) [.command 0xF00000000]).inbox = .command 0xF00000000 :: [] := by decide

theorem witness_OnlyResetLeavesAFault :
    (∃ t, step (withHost (faulted scenarioD) [.command 0x100000000]) = .next t ∧ t.fault = true) ∧
    (∃ t, step (withHost (faulted scenarioD) [.reset]) = .next t ∧ (!t.fault) = true) ∧ (faulted scenarioD).fault = true :=
  ⟨exists_next (p := fun t => t.fault) (by decide), exists_next (p := fun t => !t.fault) (by decide), by decide⟩

theorem witness_FaultEntryChangesOnlyTheStatus :
    (withHost scenarioD [.command 0x80000000A]).fault = false ∧
    (withHost scenarioD [.command 0x80000000A]).inbox = .command 0x80000000A :: [] ∧
    ∃ t, step (withHost scenarioD [.command 0x80000000A]) = .next t ∧ t.fault = true :=
  ⟨by decide, by decide, exists_next (p := fun t => t.fault) (by decide)⟩

/-- One state and word for each code, 0 to 4. -/
theorem witness_EachCauseHasItsCode :
    (∀ s ∈ [scenarioD, corrupted, staging (finite 1 9) 4 groupC], s.cfg.legal = true ∧ s.fault = false ∧ s.cause = .none) ∧
    (nextOf (step (withHost scenarioD [.command 0x800000009]))).map (fun t => t.cause.code) = some 0 ∧
    (nextOf (step (withHost corrupted [.command 0x300000000]))).map (fun t => t.cause.code) = some 1 ∧
    (nextOf (step (withHost (staging (finite 1 9) 4 groupC) [.command 0x200000005]))).map (fun t => t.cause.code) = some 2 ∧
    (nextOf (step (withHost scenarioD [.command 0xD00000000]))).map (fun t => t.cause.code) = some 3 ∧
    (nextOf (step (withHost scenarioD [.command 0x80000000A]))).map (fun t => t.cause.code) = some 4 := by decide

theorem witness_CorrectUseNeverFaults :
    Sound scenarioD ∧ scenarioD.fault = false ∧ scenarioD.cfg.hdrCap = .inf ∧ scenarioD.cfg.pkdCap = .inf ∧
    (0 : Arg).toNat < scenarioD.hlen ∧ (9 : Arg).toNat < scenarioD.plen ∧ (0 : Arg).toNat < scenarioD.slen.val :=
  ⟨sound_scenarioD, by decide⟩

theorem witness_NewEmptiesTheCodec : scenarioD.fault = false ∧ (faulted scenarioD).fault = true := by decide

theorem witness_AddStagesItsValue :
    State.reset.fault = false ∧ State.reset.slen.val < 4 ∧ (staging Config.default 3 groupC).slen.val < 4 := by decide

/-- The flush fits both memories exactly. -/
theorem witness_AddFlushesTheGroupFirst :
    MemInv (staging (finite 1 10) 4 groupC) ∧ (staging (finite 1 10) 4 groupC).fault = false ∧
    (staging (finite 1 10) 4 groupC).slen.val = 4 ∧ capAdmits (.bytes 1) (0 + 1) = true ∧
    capAdmits (.bytes 10) (0 + (width groupC.r0 + width groupC.r1 + width groupC.r2 + width groupC.r3)) = true := by decide

theorem witness_AddRaisesCapacityOverflow :
    (staging (finite 0 99) 4 groupC).slen.val = 4 ∧ (staging (finite 0 99) 4 groupC).cfg.hdrCap = .bytes 0 ∧ 0 < 0 + 1 ∧
    (staging (finite 1 9) 4 groupC).cfg.pkdCap = .bytes 9 ∧
    9 < 0 + (width groupC.r0 + width groupC.r1 + width groupC.r2 + width groupC.r3) ∧
    ¬ (staging (finite 0 0) 3 groupC).slen.val = 4 := by decide

theorem witness_UnboundedAddNeverFaults :
    scenarioC.fault = false ∧ scenarioC.cfg.hdrCap = .inf ∧ scenarioC.cfg.pkdCap = .inf := by decide

theorem witness_StateAfterAdds :
    MemInv State.reset ∧ State.reset.fault = false ∧ State.reset.slen.val = 0 ∧
    (∀ i ∈ [Instr.add 1, .decode, .add 2, .add 3, .add 4, .count, .add 5], i ≠ .new) ∧
    ∃ t, runInstrs [.add 1, .decode, .add 2, .add 3, .add 4, .count, .add 5] State.reset = .next t ∧
      decide (t.fault = false ∧ t.hlen = 1 ∧ t.staging = [5]) = true :=
  ⟨by decide, by decide, by decide, by decide, exists_next (by decide)⟩

theorem witness_LiveBytesNeverChange :
    MemInv scenarioC ∧
    ∃ t, exec (.add 7) scenarioC = .next t ∧ decide (t.readByte .hdr 0 ≠ scenarioC.readByte .hdr 0) = true :=
  ⟨by decide, exists_next (by decide)⟩

theorem witness_DecodeFunctionIsTheWalk :
    dec [0x40] [0x00, 0x05, 0x06, 0x07, 0x08] [3] = some [5, 6, 7, 8, 3] ∧ (headerWidths 0x40)[3]? = some 1 ∧
    dec [0x40] [0x00, 0x05, 0x06, 0x07] [3] = none := by decide

/-- The widths reach the length exactly, and pass it by one. -/
theorem witness_DecodeAnswersEverything :
    (faulted scenarioD).fault = true ∧
    (scenarioD.fault = false ∧ (widthsOf scenarioD.headers).sum = scenarioD.plen) ∧
    ({ scenarioD with plen := 9 } : State).fault = false ∧
    (widthsOf ({ scenarioD with plen := 9 } : State).headers).sum = 9 + 1 ∧ Sound scenarioD :=
  ⟨by decide, by decide, by decide, by decide, sound_scenarioD⟩

theorem witness_DecodeAnswersCountValues :
    scenarioD.fault = false ∧
    exec .decode scenarioD = .next { scenarioD with
      responses := scenarioD.responses ++ [.values [5, 300, 70000, 16777300, 7]] } ∧
    scenarioD.count = 4 * scenarioD.hlen + scenarioD.slen.val := by
  refine ⟨by decide, ?_, by decide⟩
  obtain ⟨t, ht, h⟩ := exists_next (o := exec .decode scenarioD) (p := fun t => decide (t = { scenarioD with
    responses := scenarioD.responses ++ [.values [5, 300, 70000, 16777300, 7]] })) (by decide)
  rw [ht, of_decide_eq_true h]

/-- Two read-only commands stand between the two `DECODE`s. -/
theorem witness_DecodeDoesNotConsume :
    Sound scenarioC ∧ scenarioC.fault = false ∧ (∀ i ∈ [Instr.count, .rdstg 3], ReadOnly i) ∧
    (∃ t, exec .decode scenarioC = .next t ∧ decide (t.responses = scenarioC.responses ++
      [.values [5, 300, 70000, 16777300]]) = true) ∧
    (∃ u, runInstrs [.count, .rdstg 3] (scenarioC.respond (.values [5, 300, 70000, 16777300])) = .next u ∧
      (!u.fault) = true) ∧
    ∃ v, runInstrs [.count, .rdstg 3, .add 7] (scenarioC.respond (.values [5, 300, 70000, 16777300])) = .next v ∧
      (!v.fault) = true :=
  ⟨sound_scenarioC, by decide, by simp [ReadOnly], exists_next (by decide), exists_next (p := fun u => !u.fault) (by decide),
    exists_next (p := fun v => !v.fault) (by decide)⟩

/-- The block a reset event leaves after a fault: empty, its dead storage as it was. -/
def resetUsed : State := { faulted scenarioD with
  count := 0, hlen := 0, plen := 0, slen := 0, fault := false, cause := .none }

theorem witness_RoundTrip :
    (MemInv scenarioD ∧ scenarioD.fault = false ∧ scenarioD.cfg.hdrCap = .inf ∧ scenarioD.cfg.pkdCap = .inf) ∧
    (∃ t, runInstrs (build [1, 300, 0, 70000, 9]) scenarioD = .next t ∧ (!t.fault) = true) ∧
    (MemInv (withHost (faulted scenarioD) [.reset]) ∧ (withHost (faulted scenarioD) [.reset]).inbox = .reset :: [] ∧
      step (withHost (faulted scenarioD) [.reset]) = .next resetUsed) ∧
    (MemInv resetUsed ∧ resetUsed.count = 0 ∧ resetUsed.hlen = 0 ∧ resetUsed.plen = 0 ∧ resetUsed.slen.val = 0 ∧
      resetUsed.readByte .pkd 0 = 5) ∧
    (∃ t, runInstrs ([1, 300, 0, 70000, 9].map .add) resetUsed = .next t ∧ (!t.fault) = true) ∧
    (∃ t, runInstrs ([1, 300, 0, 70000, 9].map .add) (State.resetWith (finite 1 7)) = .next t ∧ (!t.fault) = true) :=
  ⟨by decide, exists_next (p := fun t => !t.fault) (by decide), ⟨by decide, by decide, rfl⟩, by decide,
    exists_next (p := fun t => !t.fault) (by decide), exists_next (p := fun t => !t.fault) (by decide)⟩

theorem witness_RegistersRefineTheAbstractCodec :
    (withHost scenarioC [.command 0x200000007]).cfg.legal = true ∧ MemInv (withHost scenarioC [.command 0x200000007]) ∧
    (withHost scenarioC [.command 0x200000007]).inbox = .command 0x200000007 :: [] := by decide

/-- The two states differ in dead storage alone. -/
theorem same_view : scenarioD.view = scenarioDead.view := by
  have hh : scenarioD.headers = scenarioDead.headers := by decide
  have hp : scenarioD.packed = scenarioDead.packed := by decide
  have hs : scenarioD.staging = scenarioDead.staging := by decide
  unfold State.view State.codec
  rw [hh, hp, hs]
  rfl

theorem witness_DeadStorageIsNeverRead :
    MemInv scenarioD ∧ MemInv scenarioDead ∧ scenarioD.cfg = scenarioDead.cfg ∧ scenarioD.view = scenarioDead.view ∧
    scenarioD.stg.r1 ≠ scenarioDead.stg.r1 ∧ scenarioD.readByte .hdr 1 ≠ scenarioDead.readByte .hdr 1 ∧
    scenarioD.readByte .pkd 10 ≠ scenarioDead.readByte .pkd 10 :=
  ⟨by decide, by decide, rfl, same_view, by decide, by decide, by decide⟩

theorem witness_OnlyNewAndAddChangeTheCodec :
    (∃ t, exec .decode scenarioD = .next t ∧ (!t.fault) = true) ∧
    (∃ t, exec (.rdhdr 1) scenarioD = .next t ∧ t.fault = true) ∧
    (∃ t, exec .decode (faulted scenarioD) = .next t ∧ t.fault = true) ∧ (faulted scenarioD).fault = true :=
  ⟨exists_next (p := fun t => !t.fault) (by decide), exists_next (p := fun t => t.fault) (by decide),
    exists_next (p := fun t => t.fault) (by decide), by decide⟩

theorem witness_WidthIsTheLeastByteCount :
    (0x1000000 : Value).toNat < 2 ^ (8 * 4) ∧ 0x100 ≤ (0x100 : Value).toNat ∧
    (be 0x100 (width 0x100)).head? = some 1 ∧ (0xFF : Value).toNat ≤ (0x100 : Value).toNat := by decide

theorem witness_HeaderFieldsAndAssemblyAreInverse : 1 ≤ 1 ∧ 1 ≤ 4 ∧ (1 : Nat) ≤ 4 ∧ (4 : Nat) ≤ 4 := by decide

theorem witness_PackedBytesAreBigEndian :
    (0xFF : Value).toNat < 2 ^ (8 * 1) ∧ (0xFFFFFFFF : Value).toNat < 2 ^ (8 * 4) ∧
    1 ≤ ([0] : List Byte).length ∧ ([0, 0, 0, 9] : List Byte).length ≤ 4 := by decide

theorem witness_WidthCommandAnswersTheWidth : scenarioD.fault = false ∧ (faulted scenarioD).fault = true := by decide
theorem witness_CountCommandAnswersTheCount : scenarioD.fault = false ∧ (faulted scenarioD).fault = true := by decide
theorem witness_FootprintCommandAnswersTheFootprint :
    scenarioD.fault = false ∧ (faulted scenarioD).fault = true := by decide
theorem witness_HlenCommandAnswersTheLength : scenarioD.fault = false ∧ (faulted scenarioD).fault = true := by decide
theorem witness_PlenCommandAnswersTheLength : scenarioD.fault = false ∧ (faulted scenarioD).fault = true := by decide
theorem witness_SlenCommandAnswersTheLength : scenarioD.fault = false ∧ (faulted scenarioD).fault = true := by decide

theorem witness_RdhdrReadsOneLiveByte :
    scenarioD.fault = false ∧ (faulted scenarioD).fault = true ∧ scenarioD.hlen ≤ (1 : Arg).toNat ∧
    (0 : Arg).toNat < scenarioD.hlen := by decide

theorem witness_RdpkdReadsOneLiveByte :
    scenarioD.fault = false ∧ (faulted scenarioD).fault = true ∧ scenarioD.plen ≤ (10 : Arg).toNat ∧
    (9 : Arg).toNat < scenarioD.plen := by decide

theorem witness_RdstgReadsOneStagedValue :
    scenarioD.fault = false ∧ (faulted scenarioD).fault = true ∧ scenarioD.slen.val ≤ (1 : Arg).toNat ∧
    (0 : Arg).toNat < scenarioD.slen.val ∧ (3 : Arg).toNat < scenarioC.slen.val := by decide

theorem witness_OneResponseOfItsShape :
    (withHost scenarioD [.command 0x900000000]).cfg.legal = true ∧
    (withHost scenarioD [.command 0x900000000]).inbox = .command 0x900000000 :: [] := by decide

theorem witness_EveryResponseEndsWithItsLastBeat : ([5, 7] : List Value)[1]? = some 7 := by decide

theorem witness_ChannelWaitsForTheLastBeat :
    ({ block := scenarioD, offered := Response.ok.beats } : Wires).offered ≠ [] ∧
    ({ block := faulted scenarioD, offered := [] } : Wires).offered = [] ∧ (faulted scenarioD).cfg.legal = true := by decide

/-- The greatest operand in decimal, the first too great, and a hexadecimal one in both cases. -/
theorem witness_ListingLinesAssemble :
    SpellsOperand ['4', '2', '9', '4', '9', '6', '7', '2', '9', '5'] (2 ^ 32 - 1) ∧
    SpellsOperand ['0', 'x', '1', '0', '0', '0', '0', '0', '0', '0', '0'] (2 ^ 32) ∧ SpellsOperand ['0', 'x', 'F', 'f'] 0xFF :=
  ⟨.inl ⟨[4, 2, 9, 4, 9, 6, 7, 2, 9, 5], by decide, by decide, by decide, by decide⟩,
    .inr ⟨_, rfl, [1, 0, 0, 0, 0, 0, 0, 0, 0], by decide, by decide, by decide, by decide⟩,
    .inr ⟨_, rfl, [15, 15], by decide, by decide, by decide, by decide⟩⟩

end Sys2Proof.Tests
end

section
/-! PROOFS. The family 10_state.md: the block seen through its abstract view, what every step keeps, sound states, reset. -/

namespace Sys2Proof.Machine

/-! ### The abstract view of a register state -/

@[simp] theorem State.view_codec (s : State) : s.view.codec = s.codec := rfl
@[simp] theorem State.view_fault (s : State) : s.view.fault = s.fault := rfl
@[simp] theorem State.view_cause (s : State) : s.view.cause = s.cause := rfl
@[simp] theorem State.codec_count (s : State) : s.codec.count = s.count := rfl
@[simp] theorem State.codec_headers (s : State) : s.codec.headers = s.headers := rfl
@[simp] theorem State.codec_packed (s : State) : s.codec.packed = s.packed := rfl
@[simp] theorem State.codec_staging (s : State) : s.codec.staging = s.staging := rfl

@[simp] theorem State.view_respond (r : Response) (s : State) : (s.respond r).view = s.view := rfl

@[simp] theorem State.view_latch (c : Cause) (s : State) :
    (s.latch c).view = { s.view with fault := true, cause := c } := rfl

@[simp] theorem State.view_clear (s : State) : s.clear.view = { s.view with codec := Codec.empty } := rfl

/-- Staging a value in the first free register appends it in the abstract view. -/
theorem State.view_stage {s : State} {k : Fin 4} (h : s.slen.val = k.val) (x : Value) :
    (s.stage k x).view = { s.view with codec := s.codec.append x } := by
  simp [State.view, State.codec, Codec.append, staging_stage h]

/-- With four values staged, the flush of the registers is the flush of the abstract view. -/
theorem State.codec_flush {s : State} (hm : MemInv s) (h4 : s.slen.val = 4) : s.flush.codec = s.codec.flush := by
  obtain ⟨hh, hp⟩ := hm
  have hs : s.codec.staging = [s.stg.r0, s.stg.r1, s.stg.r2, s.stg.r3] := staging_full h4
  simp only [Codec.flush, hs]
  simp [State.codec, headers_flush hh, packed_flush hp, State.staging, groupBytes, groupHeader, headerFor]

/-- `fits()` asks whether the abstract codec state after the flush is within the capacities. -/
theorem State.fits_eq_within {s : State} (hm : MemInv s) (h4 : s.slen.val = 4) :
    s.fits = s.codec.flush.within s.cfg := by
  simp [State.fits, Codec.within, ← State.codec_flush hm h4]

/-- A flush and the value staged after it, in the abstract view. -/
theorem State.view_flush_stage {s : State} (hm : MemInv s) (h4 : s.slen.val = 4) (x : Value) :
    (s.flush.stage 0 x).view = { s.view with codec := s.codec.flush.append x } := by
  rw [State.view_stage (by simp), State.codec_flush hm h4]
  rfl

/-- The footprint counts live contents only. -/
theorem State.footprint_codec (s : State) : s.codec.footprint s.cfg = s.footprint := by
  simp [Codec.footprint, State.footprint]

/-! ### Read-outs in the abstract view -/

/-- A live staging register is an element of the staged values. -/
theorem State.getElem_staging (s : State) (i : Nat) (h : i < s.staging.length) : s.staging[i] = s.stg.reg i := by
  have hi : i < s.stg.toList.length := by
    rw [State.length_staging] at h
    rw [Staging.length_toList]
    omega
  simp [State.staging, Staging.reg, List.getElem?_eq_getElem hi]

/-- An index below the length reads the element. -/
theorem View.readAt_of_lt {n : Nat} (v : View) (q : List (BitVec n)) {i : Nat} (h : i < q.length) :
    v.readAt (q.map BitVec.toNat) i = (v, .word q[i].toNat) := by
  simp [View.readAt, h]

/-- An index at or past the length raises `IndexOutOfRange`. -/
theorem View.readAt_of_le {n : Nat} (v : View) (q : List (BitVec n)) {i : Nat} (h : q.length ≤ i) :
    v.readAt (q.map BitVec.toNat) i = v.raise .indexOutOfRange := by
  simp [View.readAt, h]

/-! ### Each command does on the abstract view what it does on the registers -/

/-- A faulted abstract view answers its cause and stays. -/
theorem View.perform_of_fault {v : View} (h : v.fault = true) (p : Config) (i : Instr) :
    v.perform p i = (v, .fault v.cause) := by
  simp [View.perform, h]

/-- A command that faults on the registers faults with the same cause on the abstract view. -/
theorem Raises.perform_view {i : Instr} {s : State} {c : Cause} (hm : MemInv s) (hf : s.fault = false)
    (hr : Raises i s c) : s.view.perform s.cfg i = s.view.raise c := by
  cases hr with
  | decode h => simp [View.perform, hf, h]
  | add x h4 h => simp [View.perform, hf, h4, ← State.fits_eq_within hm h4, h]
  | rdhdr a h => simpa [View.perform, hf] using s.view.readAt_of_le s.headers (by simpa using h)
  | rdpkd a h => simpa [View.perform, hf] using s.view.readAt_of_le s.packed (by simpa using h)
  | rdstg a h => simpa [View.perform, hf] using s.view.readAt_of_le s.staging (by simpa using h)

/-- A command that reads gives the same response on the abstract view and leaves it. -/
theorem IsReading.perform_view {i : Instr} {s : State} {r : Response} (hf : s.fault = false) (hr : IsReading i s r) :
    s.view.perform s.cfg i = (s.view, r) := by
  cases hr with
  | decode h => simp [View.perform, hf, h]
  | count => simp [View.perform, hf]
  | footprint => simp [View.perform, hf, State.footprint_codec]
  | width x => simp [View.perform, hf]
  | rdhdr a h =>
    have hl : a.toNat < s.headers.length := by simpa using h
    simpa [View.perform, hf, State.getElem_headers] using s.view.readAt_of_lt s.headers hl
  | rdpkd a h =>
    have hl : a.toNat < s.packed.length := by simpa using h
    simpa [View.perform, hf, State.getElem_packed] using s.view.readAt_of_lt s.packed hl
  | rdstg a h =>
    have hl : a.toNat < s.staging.length := by simpa using h
    simpa [View.perform, hf, State.getElem_staging] using s.view.readAt_of_lt s.staging hl
  | hlen => simp [View.perform, hf]
  | plen => simp [View.perform, hf]
  | slen => simp [View.perform, hf]

/-- Every command does on the abstract view what it does on the registers, with one response. -/
theorem Effect.perform_view {i : Instr} {s t : State} (hm : MemInv s) (he : Effect i s t) :
    ∃ r, t.responses = s.responses ++ [r] ∧ s.view.perform s.cfg i = (t.view, r) := by
  cases he with
  | sticky hf => exact ⟨_, rfl, View.perform_of_fault hf _ _⟩
  | raised c hf hr => exact ⟨_, rfl, hr.perform_view hm hf⟩
  | read r hf hr => exact ⟨r, rfl, hr.perform_view hf⟩
  | cleared hf hi => exact ⟨.ok, rfl, by simp [hi, View.perform, hf]⟩
  | staged x k hf hi hk =>
    have h4 : s.slen.val ≠ 4 := by omega
    exact ⟨.ok, rfl, by simp [hi, View.perform, hf, h4, State.view_stage hk]⟩
  | flushed x hf hi h4 hfit =>
    have hw : s.codec.flush.within s.cfg = true := State.fits_eq_within hm h4 ▸ hfit
    exact ⟨.ok, rfl, by simp [hi, View.perform, hf, h4, hw, State.view_flush_stage hm h4]⟩

/-! ### Every command answers -/

/-- The guard answers a next state when what it guards does. -/
theorem unlessFaulted_completes {s : State} {run : Out} (h : ∃ t, run = .next t) : ∃ t, unlessFaulted s run = .next t := by
  unfold unlessFaulted
  split
  · exact ⟨_, rfl⟩
  · exact h

theorem readOut_completes (sp : Space) (a : Nat) (s : State) : ∃ t, readOut sp a s = .next t := by
  unfold readOut
  split <;> exact ⟨_, rfl⟩

/-- Every command answers a next state in every state (10_state.md R25). -/
theorem exec_completes (i : Instr) (s : State) : ∃ t, exec i s = .next t := by
  cases i with
  | new => exact unlessFaulted_completes ⟨_, rfl⟩
  | add x =>
    refine unlessFaulted_completes ?_
    split
    · exact ⟨_, rfl⟩
    · split <;> exact ⟨_, rfl⟩
  | decode =>
    refine unlessFaulted_completes ?_
    split <;> exact ⟨_, rfl⟩
  | count => exact unlessFaulted_completes ⟨_, rfl⟩
  | footprint => exact unlessFaulted_completes ⟨_, rfl⟩
  | width x => exact unlessFaulted_completes ⟨_, rfl⟩
  | rdhdr a => exact unlessFaulted_completes (readOut_completes ..)
  | rdpkd a => exact unlessFaulted_completes (readOut_completes ..)
  | rdstg a =>
    refine unlessFaulted_completes ?_
    split <;> exact ⟨_, rfl⟩
  | hlen => exact unlessFaulted_completes ⟨_, rfl⟩
  | plen => exact unlessFaulted_completes ⟨_, rfl⟩
  | slen => exact unlessFaulted_completes ⟨_, rfl⟩

/-- The registers refine the abstract codec, command by command (10_state.md R28). -/
theorem exec_refines_perform {s : State} (hm : MemInv s) (i : Instr) :
    ∃ t r, exec i s = .next t ∧ t.responses = s.responses ++ [r] ∧ s.view.perform s.cfg i = (t.view, r) := by
  obtain ⟨t, ht⟩ := exec_completes i s
  obtain ⟨r, hr, hv⟩ := (exec_effect ht).perform_view hm
  exact ⟨t, r, ht, hr, hv⟩

/-- Settles O36: both register states refine one abstract command, whose view and response they therefore share. -/
theorem deadStorageIsNeverRead : Obligations.DeadStorageIsNeverRead := by
  intro s s' i hm hm' hcfg hview
  obtain ⟨t, r, ht, hr, hv⟩ := exec_refines_perform hm i
  obtain ⟨t', r', ht', hr', hv'⟩ := exec_refines_perform hm' i
  rw [hcfg, hview, hv', Prod.mk.injEq] at hv
  obtain ⟨hvt, rfl⟩ := hv
  exact ⟨t, t', r', ht, ht', hvt.symm, hr, hr'⟩

/-! ### What every step keeps -/

/-- A property that commands, `IllegalCommand`, the host's list and the reset event keep is kept by every step. -/
theorem step_keeps {P : State → Prop} (hinbox : ∀ es s, P s → P (s.withInbox es))
    (heffect : ∀ i s t, P s → Effect i s t → P t)
    (hillegal : ∀ s, P s → s.fault = false → P ((s.latch .illegalCommand).respond (.fault .illegalCommand)))
    (hreset : ∀ s, P s → P s.resetBlock) {s t : State} (hs : P s) (h : step s = .next t) : P t := by
  rcases (step_cases h).2 with ⟨-, rfl⟩ | ⟨w, es, -, hw⟩ | ⟨es, -, rfl⟩
  · exact hs
  · rcases runWord_cases hw with ⟨i, -, hi⟩ | ⟨-, ⟨hf, rfl⟩ | ⟨hf, rfl⟩⟩
    · exact heffect i _ t (hinbox es s hs) (exec_effect hi)
    · exact heffect .new _ _ (hinbox es s hs) (.sticky hf)
    · exact hillegal _ (hinbox es s hs) hf
  · exact hreset _ (hinbox es s hs)

/-- Every command keeps the count invariant: a staged value raises both sides by one, a flush moves four values to one
header byte. -/
theorem Effect.countInv {i : Instr} {s t : State} (hs : CountInv s) (he : Effect i s t) : CountInv t := by
  cases he with
  | sticky _ => exact hs
  | raised _ _ _ => exact hs
  | read _ _ _ => exact hs
  | cleared _ _ => rfl
  | staged x k _ _ hk =>
    simp [CountInv] at hs ⊢
    omega
  | flushed x _ _ h4 _ =>
    simp [CountInv] at hs ⊢
    omega

/-- Settles O14: the count invariant is 0 = 0 after reset, and the effect of every command keeps it. -/
theorem everyStepKeepsTheCount : Obligations.EveryStepKeepsTheCount :=
  ⟨fun _ => rfl, fun _ _ => step_keeps (P := CountInv) (fun _ _ hs => hs) (fun _ _ _ => Effect.countInv)
    (fun _ hs _ => hs) (fun _ _ => rfl)⟩

/-! ### Sound states -/

theorem field_lt_four (h : Byte) (i : Nat) : field h i < 4 :=
  Nat.and_lt_two_pow (n := 2) _ (by decide)

/-- The widths the headers hold are widths of values. -/
theorem mem_widthsOf {headers : List Byte} {w : Nat} (h : w ∈ widthsOf headers) : 1 ≤ w ∧ w ≤ 4 := by
  obtain ⟨b, -, hw⟩ := List.mem_flatMap.mp h
  obtain ⟨i, rfl⟩ : ∃ i, w = field b i + 1 := by
    simp only [headerWidths, List.mem_cons, List.not_mem_nil, or_false] at hw
    rcases hw with rfl | rfl | rfl | rfl <;> exact ⟨_, rfl⟩
  have := field_lt_four b i
  omega

theorem four_mul_le_sum_widthsOf (headers : List Byte) : 4 * headers.length ≤ (widthsOf headers).sum := by
  simpa using List.card_nsmul_le_sum (widthsOf headers) 1 fun _ hw => (mem_widthsOf hw).1

theorem sum_widthsOf_le (headers : List Byte) : (widthsOf headers).sum ≤ 16 * headers.length := by
  have := List.sum_le_card_nsmul (widthsOf headers) 4 fun _ hw => (mem_widthsOf hw).2
  rw [length_widthsOf, smul_eq_mul] at this
  omega

/-- In a sound state the decode function does not fail (10_state.md R24 (c)). -/
theorem Sound.exists_dec {s : State} (hs : Sound s) : ∃ q, dec s.headers s.packed s.staging = some q := by
  obtain ⟨vs, hvs, -⟩ := Option.map_eq_some_iff.mp hs.minimal
  exact ⟨vs ++ s.staging, by simp [dec, hvs]⟩

/-- `DECODE` answers what the decode function returns (42_decoder.md R90). -/
theorem exec_decode_of_dec {s : State} {q : List Value} (hf : s.fault = false)
    (h : dec s.headers s.packed s.staging = some q) : exec .decode s = .next (s.respond (.values q)) := by
  simp [exec, execDecode, unlessFaulted_of_run hf, h, answer]

/-- Settles O15: the length bounds are those of a sum of widths, the rest of the lengths follows from the count and the
tail, and minimality says that the committed stream unpacks. -/
theorem soundStateConsequences : Obligations.SoundStateConsequences := by
  intro s hs
  have hcount : s.count = 4 * s.hlen + s.slen.val := hs.count
  have htail : s.slen.val = 0 → s.hlen = 0 := hs.tail
  have hlow := four_mul_le_sum_widthsOf s.headers
  have hhigh := sum_widthsOf_le s.headers
  rw [← hs.packed, State.length_headers] at hlow hhigh
  refine ⟨⟨hlow, hhigh⟩, ?_, ?_, hs.packed.symm, ?_⟩
  · intro hc
    omega
  · intro hc
    omega
  · intro hf
    obtain ⟨q, hq⟩ := hs.exists_dec
    exact ⟨q, exec_decode_of_dec hf hq⟩

/-! ### Reset -/

/-- Settles O9: the reset state of any parameters by its definition, and the default parameters are legal. -/
theorem resetStateIsEmpty : Obligations.ResetStateIsEmpty :=
  ⟨fun _ => ⟨rfl, rfl, rfl, rfl, rfl, rfl, rfl, rfl⟩, Config.default, by decide, rfl⟩

end Sys2Proof.Machine
end

section
/-! PROOFS. The family 30_encoding.md: the command word and the opcode map, the header byte, big-endian bytes. -/

namespace Sys2Proof

/-! ### The opcode map -/

/-- An opcode spells a mnemonic exactly when it is the number of that row (R52). -/
theorem mnemonicOf_eq_some {op : Opcode} {m : Mnemonic} : mnemonicOf op = some m ↔ op = m.opcode := by
  cases m <;> decide +revert

@[simp] theorem Mnemonic.mnemonic_withArg (m : Mnemonic) (a : Arg) : (m.withArg a).mnemonic = m := by
  cases m <;> rfl

/-- The decoder reads a command exactly when the opcode is that of its row and its operand, if it has one, is `arg` whole
(R51, R52). -/
theorem decode_eq_ok {w : CmdWord} {i : Instr} :
    decode w = .ok i ↔ opOf w = i.mnemonic.opcode ∧ i.mnemonic.withArg (argOf w) = i := by
  rw [← mnemonicOf_eq_some, decode]
  cases mnemonicOf (opOf w) with
  | none => simp
  | some m =>
    constructor
    · intro h
      cases h
      simp
    · rintro ⟨hm, hi⟩
      cases hm
      exact congrArg Except.ok hi

/-- The mask keeps the opcode and clears `arg`. -/
theorem and_opcodeMask (w : CmdWord) : w &&& opcodeMask = cmdWord (opOf w) 0 := by
  have hmask : opcodeMask = BitVec.allOnes 4 ++ 0#32 := by decide
  calc w &&& opcodeMask
    _ = cmdWord (opOf w) (argOf w) &&& (BitVec.allOnes 4 ++ 0#32) := by rw [cmdWord_opOf_argOf, hmask]
    _ = (opOf w &&& BitVec.allOnes 4) ++ (argOf w &&& 0#32) := BitVec.and_append
    _ = cmdWord (opOf w) 0 := by rw [BitVec.and_allOnes, BitVec.and_zero]; rfl

theorem Mnemonic.matchWord_eq_cmdWord (m : Mnemonic) : m.matchWord = cmdWord m.opcode 0 := by
  cases m <;> decide

/-- A word matches a row under the mask exactly when the decoder reads that row's command. -/
theorem and_opcodeMask_eq_matchWord (w : CmdWord) (m : Mnemonic) :
    w &&& opcodeMask = m.matchWord ↔ decode w = .ok (m.withArg (argOf w)) := by
  rw [and_opcodeMask, m.matchWord_eq_cmdWord, decode_eq_ok, m.mnemonic_withArg]
  constructor
  · intro h
    exact ⟨by simpa using congrArg opOf h, rfl⟩
  · rintro ⟨h, -⟩
    rw [h]

/-- Settles O1: each clause is `and_opcodeMask_eq_matchWord` at its row. -/
theorem opcodeMapSpellsEachCommand : Obligations.OpcodeMapSpellsEachCommand := by
  intro w
  have row := and_opcodeMask_eq_matchWord w
  exact ⟨row .new, row .add, row .decode, row .count, row .footprint, row .width, row .rdhdr, row .rdpkd, row .rdstg,
    row .hlen, row .plen, row .slen⟩

end Sys2Proof

namespace Sys2Proof.Machine

/-! ### Header bytes -/

/-- Field `i` of a header byte is a pair of its bits, position 0 in the highest (R56). -/
theorem field_eq_extractLsb' (h : Byte) (i : Nat) : field h i = (h.extractLsb' (6 - 2 * i) 2).toNat :=
  Nat.and_two_pow_sub_one_eq_mod _ 2

/-- A header byte is the number its four fields spell in base 4. -/
theorem toNat_eq_fields (h : Byte) : h.toNat = field h 0 * 64 + field h 1 * 16 + field h 2 * 4 + field h 3 := by
  have := h.isLt
  simp only [field_eq_extractLsb', BitVec.extractLsb'_toNat, Nat.shiftRight_eq_div_pow]
  omega

/-- The four widths determine the header byte. -/
theorem headerWidths_injective : Function.Injective headerWidths := by
  intro h h' heq
  simp only [headerWidths, List.cons.injEq, Nat.add_right_cancel_iff, and_true] at heq
  obtain ⟨h0, h1, h2, h3⟩ := heq
  apply BitVec.eq_of_toNat_eq
  rw [toNat_eq_fields h, toNat_eq_fields h', h0, h1, h2, h3]

/-- Each field of an assembled header byte, plus one, is the width it was assembled from. -/
theorem field_hdrByte {w0 w1 w2 w3 : Nat} (h0 : 1 ≤ w0 ∧ w0 ≤ 4) (h1 : 1 ≤ w1 ∧ w1 ≤ 4) (h2 : 1 ≤ w2 ∧ w2 ≤ 4)
    (h3 : 1 ≤ w3 ∧ w3 ≤ 4) :
    field (hdrByte w0 w1 w2 w3) 0 + 1 = w0 ∧ field (hdrByte w0 w1 w2 w3) 1 + 1 = w1 ∧
      field (hdrByte w0 w1 w2 w3) 2 + 1 = w2 ∧ field (hdrByte w0 w1 w2 w3) 3 + 1 = w3 := by
  simpa [headerWidths] using headerWidths_hdrByte h0 h1 h2 h3

/-- Assembling the widths a header byte holds gives the byte back. -/
theorem hdrByte_field (h : Byte) : hdrByte (field h 0 + 1) (field h 1 + 1) (field h 2 + 1) (field h 3 + 1) = h := by
  have hw (i : Nat) : 1 ≤ field h i + 1 ∧ field h i + 1 ≤ 4 := ⟨Nat.succ_pos _, field_lt_four h i⟩
  exact headerWidths_injective (headerWidths_hdrByte (hw 0) (hw 1) (hw 2) (hw 3))

/-- Settles O39: the fields of an assembled byte are its widths less one, the byte is what its fields spell, and the fields
determine it. -/
theorem headerFieldsAndAssemblyAreInverse : Obligations.HeaderFieldsAndAssemblyAreInverse := by
  constructor
  · intro w0 w1 w2 w3 l0 u0 l1 u1 l2 u2 l3 u3
    have hfields := field_hdrByte ⟨l0, u0⟩ ⟨l1, u1⟩ ⟨l2, u2⟩ ⟨l3, u3⟩
    refine ⟨?_, hfields⟩
    rw [toNat_eq_fields]
    omega
  · intro h
    exact ⟨field_eq_extractLsb' h 0, field_eq_extractLsb' h 1, field_eq_extractLsb' h 2, field_eq_extractLsb' h 3,
      fun i _ => Nat.le_of_lt_succ (field_lt_four h i), hdrByte_field h⟩

/-! ### Big-endian bytes -/

/-- The bytes of `be` as slices of the value, most significant first (R58). -/
theorem be_eq_extractLsb' (x : Value) (w : Nat) :
    be x w = (List.range w).map fun j => x.extractLsb' (8 * (w - 1 - j)) 8 := by
  refine List.map_congr_left fun j _ => BitVec.eq_of_toNat_eq ?_
  rw [BitVec.toNat_ofNat, show (0xFF : Nat) = 2 ^ 8 - 1 by rfl, Nat.and_two_pow_sub_one_eq_mod, Nat.mod_mod,
    BitVec.extractLsb'_toNat]

/-- A big-endian sequence is the library's digit list to base 256, read backwards. -/
theorem unbeNat_eq_ofDigits (bytes : List Byte) :
    unbeNat bytes = Nat.ofDigits 256 (bytes.map BitVec.toNat).reverse := by
  induction bytes with
  | nil => rfl
  | cons b bs ih => simp [unbeNat, ih, Nat.ofDigits_append, Nat.mul_comm, Nat.add_comm]

/-- The digits are bytes. -/
theorem lt_of_mem_digits {bytes : List Byte} {d : Nat} (h : d ∈ (bytes.map BitVec.toNat).reverse) : d < 256 := by
  obtain ⟨b, -, rfl⟩ := List.mem_map.mp (List.mem_reverse.mp h)
  exact b.isLt

theorem unbeNat_lt (bytes : List Byte) : unbeNat bytes < 256 ^ bytes.length := by
  have := Nat.ofDigits_lt_base_pow_length (b := 256) (by decide) fun _ => lt_of_mem_digits (bytes := bytes)
  simpa [unbeNat_eq_ofDigits] using this

/-- Sequences of one length that spell one number are equal. -/
theorem unbeNat_inj {as bs : List Byte} (hl : as.length = bs.length) (h : unbeNat as = unbeNat bs) : as = bs := by
  rw [unbeNat_eq_ofDigits, unbeNat_eq_ofDigits] at h
  have hdigits := Nat.ofDigits_inj_of_len_eq (b := 256) (by decide) (by simp [hl]) (fun _ => lt_of_mem_digits)
    (fun _ => lt_of_mem_digits) h
  exact List.map_injective_iff.mpr (fun _ _ => BitVec.eq_of_toNat_eq) (List.reverse_injective hdigits)

/-- The number spelled, byte by byte with its weight (R59). -/
theorem unbeNat_eq_sum (bytes : List Byte) :
    unbeNat bytes =
      ((List.range bytes.length).map fun j => (bytes.getD j 0).toNat * 2 ^ (8 * (bytes.length - 1 - j))).sum := by
  induction bytes with
  | nil => rfl
  | cons b bs ih =>
    have hweight : (2 : Nat) ^ (8 * bs.length) = 256 ^ bs.length := Nat.pow_mul 2 8 _
    simp [unbeNat, ih, List.range_succ_eq_map, Function.comp_def, hweight, Nat.sub_sub, Nat.add_comm 1]

/-- Up to four bytes spell a 32-bit value, so `unbe` loses nothing. -/
theorem toNat_unbe {bytes : List Byte} (h : bytes.length ≤ 4) : (unbe bytes).toNat = unbeNat bytes := by
  have hpow : 256 ^ bytes.length ≤ 256 ^ 4 := Nat.pow_le_pow_right (by decide) h
  exact Nat.mod_eq_of_lt ((unbeNat_lt bytes).trans_le hpow)

/-- `unbe` undoes `be` on a value that fits the width (R59). -/
theorem unbe_be {x : Value} {w : Nat} (h : x.toNat < 256 ^ w) : unbe (be x w) = x := by
  rw [unbe, unbeNat_be, Nat.mod_eq_of_lt h, BitVec.ofNat_toNat, BitVec.setWidth_eq]

/-- `be` undoes `unbe` on up to four bytes (R59). -/
theorem be_unbe {bytes : List Byte} (h : bytes.length ≤ 4) : be (unbe bytes) bytes.length = bytes := by
  apply unbeNat_inj (length_be _ _)
  rw [unbeNat_be, toNat_unbe h, Nat.mod_eq_of_lt (unbeNat_lt bytes)]

/-- Settles O40: the bytes of `be` are slices of the value, and `be` and `unbe` are inverse because a number below
`256 ^ w` has one spelling in `w` bytes. -/
theorem packedBytesAreBigEndian : Obligations.PackedBytesAreBigEndian := by
  have hpow (w : Nat) : (2 : Nat) ^ (8 * w) = 256 ^ w := Nat.pow_mul 2 8 w
  refine ⟨fun x => ?_, fun x w _ _ hx => unbe_be (hpow w ▸ hx), fun bytes _ h4 => ⟨be_unbe h4, ?_, ?_⟩⟩
  · simp only [be_eq_extractLsb']
    exact ⟨rfl, rfl, rfl, rfl⟩
  · rw [toNat_unbe h4, hpow]
    exact unbeNat_lt bytes
  · rw [toNat_unbe h4, unbeNat_eq_sum]

end Sys2Proof.Machine
end

section
/-! PROOFS. The family 40_width.md: the width calculator and `WIDTH`. -/

namespace Sys2Proof.Machine

/-! ### The width calculator -/

/-- A value wider than one byte does not fit one byte less than its width. -/
theorem pow_pred_width_le_toNat {x : Value} (h : 1 < width x) : 256 ^ (width x - 1) ≤ x.toNat := by
  unfold width at h ⊢
  split_ifs at h ⊢ <;> omega

/-- A width is enough exactly when it is at least that of the value: `width` is the least such (R71 (c)). -/
theorem width_le_iff {x : Value} {w : Nat} (hw : 1 ≤ w) : width x ≤ w ↔ x.toNat < 256 ^ w := by
  constructor
  · intro h
    exact (toNat_lt_of_width x).trans_le (Nat.pow_le_pow_right (by decide) h)
  · intro h
    by_contra hlt
    have hpred : 256 ^ (width x - 1) ≤ x.toNat := pow_pred_width_le_toNat (by omega)
    have hpow : 256 ^ w ≤ 256 ^ (width x - 1) := Nat.pow_le_pow_right (by decide) (by omega)
    omega

/-- The width is monotone in the unsigned value (R71 (d)). -/
theorem width_mono {x y : Value} (h : x.toNat ≤ y.toNat) : width x ≤ width y :=
  (width_le_iff (width_pos y)).mpr (h.trans_lt (toNat_lt_of_width y))

/-- Of a value of at most `k + 1` bytes, byte `k` is zero exactly when `k` bytes are enough. -/
theorem extractLsb'_eq_zero_iff_width_le {x : Value} {k : Nat} (hk : 1 ≤ k) (h : width x ≤ k + 1) :
    x.extractLsb' (8 * k) 8 = 0 ↔ width x ≤ k := by
  have hdiv : x.toNat / 256 ^ k < 256 := by
    rw [Nat.div_lt_iff_lt_mul (by positivity), ← Nat.pow_succ']
    exact (width_le_iff (by omega)).mp h
  have hbyte : (x.extractLsb' (8 * k) 8).toNat = x.toNat / 256 ^ k := by
    rw [BitVec.extractLsb'_toNat, Nat.shiftRight_eq_div_pow, Nat.pow_mul]
    exact Nat.mod_eq_of_lt hdiv
  rw [width_le_iff hk, ← BitVec.toNat_inj, hbyte]
  simp [Nat.div_eq_zero_iff]

/-- From 0x100 on, the first byte the encoder gives a value is not zero (R71 (c)). -/
theorem head?_packedValue_ne_zero {x : Value} (hx : 0x100 ≤ x.toNat) {b : Byte}
    (hb : (packedValue x).head? = some b) : b ≠ 0 := by
  have hwide : ¬ width x ≤ 1 := by
    rw [width_le_iff le_rfl]
    omega
  have hhead : b = x.extractLsb' (8 * (width x - 1)) 8 := by
    have hne : width x ≠ 0 := by omega
    simpa [packedValue, be_eq_extractLsb', List.head?_range, hne, eq_comm] using hb
  rw [hhead, ne_eq, extractLsb'_eq_zero_iff_width_le (by omega) (by omega)]
  omega

/-- The width is the place of the highest byte that is not zero (R71 (e)). -/
theorem width_eq_highest_byte (x : Value) :
    width x = if x.extractLsb' 24 8 ≠ 0 then 4 else if x.extractLsb' 16 8 ≠ 0 then 3
      else if x.extractLsb' 8 8 ≠ 0 then 2 else 1 := by
  have hpos := width_pos x
  have hfour := width_le_four x
  have h3 : x.extractLsb' 24 8 = 0 ↔ width x ≤ 3 := extractLsb'_eq_zero_iff_width_le (k := 3) (by decide) hfour
  have h2 (hle : width x ≤ 3) : x.extractLsb' 16 8 = 0 ↔ width x ≤ 2 :=
    extractLsb'_eq_zero_iff_width_le (k := 2) (by decide) hle
  have h1 (hle : width x ≤ 2) : x.extractLsb' 8 8 = 0 ↔ width x ≤ 1 :=
    extractLsb'_eq_zero_iff_width_le (k := 1) (by decide) hle
  split_ifs with h24 h16 h8
  · rw [ne_eq, h3] at h24
    omega
  · rw [not_not, h3] at h24
    rw [ne_eq, h2 h24] at h16
    omega
  · rw [not_not, h3] at h24
    rw [not_not, h2 h24] at h16
    rw [ne_eq, h1 h16] at h8
    omega
  · rw [not_not, h3] at h24
    rw [not_not, h2 h24] at h16
    rw [not_not, h1 h16] at h8
    omega

/-- Settles O38: `width_le_iff` gives the least width and its order, `extractLsb'_eq_zero_iff_width_le` the statements
about bytes. -/
theorem widthIsTheLeastByteCount : Obligations.WidthIsTheLeastByteCount := by
  have hpow (w : Nat) : (2 : Nat) ^ (8 * w) = 256 ^ w := Nat.pow_mul 2 8 w
  refine ⟨fun x => ⟨rfl, width_pos x, width_le_four x, ?_, ?_, unbe_packedValue x, ?_, width_eq_highest_byte x⟩,
    fun _ _ => width_mono, by decide⟩
  · rw [hpow]
    exact toNat_lt_of_width x
  · intro w hw hx
    rw [hpow] at hx
    exact (width_le_iff hw).mpr hx
  · exact fun hx _ => head?_packedValue_ne_zero hx

end Sys2Proof.Machine

/-! ### The command -/

namespace Sys2Proof

/-- The decoder reads the word of a row's opcode and any operand as that row's command (R51, R52). -/
theorem decode_cmdWord (m : Mnemonic) (a : Arg) : decode (cmdWord m.opcode a) = .ok (m.withArg a) := by
  simp [decode_eq_ok]

/-- Settles O41: `WIDTH` is an answer under the guard of a faulted block. -/
theorem widthCommandAnswersTheWidth : Obligations.WidthCommandAnswersTheWidth :=
  ⟨decode_cmdWord .width, fun _ _ hf => Machine.unlessFaulted_of_fault hf _,
    fun _ _ hf => Machine.unlessFaulted_of_run hf _⟩

end Sys2Proof
end

section
/-! PROOFS. The family 41_encoder.md: `NEW`, `ADD` and the flush. -/

namespace Sys2Proof.Machine

/-! ### Every way `ADD` can end -/

/-- `ADD` with a free register stages its value there (41_encoder.md R77). -/
theorem exec_add_of_free {s : State} {k : Fin 4} (x : Value) (hf : s.fault = false) (hk : s.slen.val = k.val) :
    exec (.add x) s = .next ((s.stage k x).respond .ok) := by
  simp [exec, execAdd, unlessFaulted_of_run hf, freeSlot_some.mpr hk]

/-- `ADD` with all four registers live and room for the group flushes it, then stages its value in `S[0]`
(41_encoder.md R76, R77). -/
theorem exec_add_of_fits {s : State} (x : Value) (hf : s.fault = false) (h4 : s.slen.val = 4) (hfit : s.fits = true) :
    exec (.add x) s = .next ((s.flush.stage 0 x).respond .ok) := by
  simp [exec, execAdd, unlessFaulted_of_run hf, freeSlot_none.mpr h4, hfit]

/-- `ADD` with all four registers live and no room for the group raises `CapacityOverflow` (41_encoder.md R80). -/
theorem exec_add_of_not_fits {s : State} (x : Value) (hf : s.fault = false) (h4 : s.slen.val = 4)
    (hfit : s.fits = false) :
    exec (.add x) s = .next ((s.latch .capacityOverflow).respond (.fault .capacityOverflow)) := by
  simp [exec, execAdd, unlessFaulted_of_run hf, freeSlot_none.mpr h4, hfit]

/-- `ADD` succeeds wherever a flush, if it needs one, fits. -/
theorem exec_add_succeeds {s : State} (x : Value) (hf : s.fault = false) (hfit : s.slen.val = 4 → s.fits = true) :
    ∃ t, exec (.add x) s = .next t ∧ t.fault = false ∧ t.cause = s.cause ∧ t.count = s.count + 1 ∧
      t.responses = s.responses ++ [.ok] := by
  by_cases h4 : s.slen.val = 4
  · exact ⟨_, exec_add_of_fits x hf h4 (hfit h4), by simp [hf]⟩
  · have hfree : s.slen.val < 4 := by omega
    exact ⟨_, exec_add_of_free (k := ⟨s.slen.val, hfree⟩) x hf rfl, by simp [hf]⟩

/-! ### Capacities -/

/-- Only a finite capacity turns a length away. -/
theorem capAdmits_eq_false_iff {c : Capacity} {n : Nat} : capAdmits c n = false ↔ ∃ k, c = .bytes k ∧ k < n := by
  cases c <;> simp

/-- The flush does not fit when one of the two memories turns its new length away. -/
theorem State.fits_eq_false_iff {s : State} :
    s.fits = false ↔ (∃ h, s.cfg.hdrCap = .bytes h ∧ h < s.hlen + 1) ∨
      (∃ p, s.cfg.pkdCap = .bytes p ∧ p < s.plen + groupNeed s.stg) := by
  rw [State.fits, Bool.and_eq_false_iff, capAdmits_eq_false_iff, capAdmits_eq_false_iff, State.cap_hdr, State.cap_pkd]

/-- Settles O26: with four values staged and no room the overflow is the one way `ADD` can end, and in every other state
it succeeds. -/
theorem addRaisesCapacityOverflow : Obligations.AddRaisesCapacityOverflow := by
  intro s x hf
  refine ⟨fun ⟨h4, hfull⟩ => exec_add_of_not_fits x hf h4 (State.fits_eq_false_iff.mpr hfull), fun hnot => ?_⟩
  have hfit (h4 : s.slen.val = 4) : s.fits = true := by
    by_contra hno
    exact hnot ⟨h4, State.fits_eq_false_iff.mp (Bool.eq_false_iff.mpr hno)⟩
  obtain ⟨t, ht, htf, hcause, -, hresp⟩ := exec_add_succeeds x hf hfit
  exact ⟨t, ht, htf, hcause, hresp⟩

/-- Settles O27: unbounded memories have room for every flush. -/
theorem unboundedAddNeverFaults : Obligations.UnboundedAddNeverFaults := by
  intro s x hf hhdr hpkd
  obtain ⟨t, ht, htf, -, hcount, hresp⟩ := exec_add_succeeds x hf fun _ => by simp [State.fits, hhdr, hpkd]
  exact ⟨t, ht, htf, hcount, hresp⟩

/-! ### `NEW` -/

/-- Settles O23: `NEW` clears the codec registers under the guard of a faulted block. -/
theorem newEmptiesTheCodec : Obligations.NewEmptiesTheCodec :=
  ⟨decode_cmdWord .new, fun _ hf => unlessFaulted_of_fault hf _,
    fun s hf => ⟨s.clear.respond .ok, unlessFaulted_of_run hf _, rfl, rfl⟩⟩

/-! ### The values a block holds -/

/-- The values `vs` are in the block: `gs` committed, four to a group, and the rest staged. Only before the first value
is nothing staged (10_state.md R24 (b)). -/
structure HoldsGroups (gs : List Staging) (vs : List Value) (s : State) : Prop where
  values : vs = gs.flatMap Staging.toList ++ s.staging
  count : s.count = vs.length
  headers : s.headers = gs.map groupHeader
  packed : s.packed = gs.flatMap groupBytes
  tail : s.slen.val = 0 → gs = []

/-- The block holds the values `vs`, committed in some groups, and its memories have their canonical form. -/
def Holds (vs : List Value) (s : State) : Prop := MemInv s ∧ ∃ gs, HoldsGroups gs vs s

/-- An empty block holds no value, whatever its dead storage holds. -/
theorem holds_nil {s : State} (hm : MemInv s) (hc : s.count = 0) (hh : s.hlen = 0) (hp : s.plen = 0)
    (hs : s.slen.val = 0) : Holds [] s := by
  have hheaders : s.headers = [] := List.length_eq_zero_iff.mp (by simpa using hh)
  have hpacked : s.packed = [] := List.length_eq_zero_iff.mp (by simpa using hp)
  have hstaging : s.staging = [] := List.length_eq_zero_iff.mp (by simpa using hs)
  exact ⟨hm, [], by simp [hstaging], hc, hheaders, hpacked, fun _ => rfl⟩

/-- A response changes nothing of what the block holds. -/
theorem Holds.respond {vs : List Value} {s : State} (h : Holds vs s) (r : Response) : Holds vs (s.respond r) := by
  obtain ⟨hm, gs, hvalues, hcount, hheaders, hpacked, htail⟩ := h
  exact ⟨hm, gs, hvalues, hcount, hheaders, hpacked, htail⟩

/-- Staging a value in the first free register appends it, in no group. -/
theorem Holds.stage {vs : List Value} {s : State} {k : Fin 4} (h : Holds vs s) (hk : s.slen.val = k.val) (x : Value) :
    Holds (vs ++ [x]) (s.stage k x) := by
  obtain ⟨hm, gs, hvalues, hcount, hheaders, hpacked, -⟩ := h
  exact ⟨hm, gs, by simp [hvalues, staging_stage hk], by simp [hcount], by simp [hheaders], by simp [hpacked], by simp⟩

/-- The flush makes the four staged values one more group; the next value is staged after it. -/
theorem Holds.flush_stage {vs : List Value} {s : State} (h : Holds vs s) (h4 : s.slen.val = 4) (x : Value) :
    Holds (vs ++ [x]) (s.flush.stage 0 x) := by
  obtain ⟨⟨hhdr, hpkd⟩, gs, hvalues, hcount, hheaders, hpacked, -⟩ := h
  exact ⟨wf_flush hhdr hpkd, gs ++ [s.stg], by simp [hvalues, staging_full h4, staging_flush_stage], by simp [hcount],
    by simp [headers_flush hhdr, hheaders], by simp [packed_flush hpkd, hpacked], by simp⟩

/-! ### Runs of commands -/

/-- A command that reads adds no value. -/
theorem IsReading.added_eq_none {i : Instr} {s : State} {r : Response} (h : IsReading i s r) : added i = none := by
  cases h <;> rfl

@[simp] theorem addedValues_cons (i : Instr) (is : List Instr) :
    addedValues (i :: is) = (added i).toList ++ addedValues is := by
  cases h : added i <;> simp [addedValues, h]

/-- A command but `NEW` that leaves no fault appends the value it adds, if it adds one. -/
theorem Holds.effect {vs : List Value} {i : Instr} {s t : State} (h : Holds vs s) (hi : i ≠ .new) (he : Effect i s t)
    (ht : t.fault = false) : Holds (vs ++ (added i).toList) t := by
  cases he with
  | sticky hf => simp [hf] at ht
  | raised c _ _ => simp at ht
  | read r _ hr => simpa [hr.added_eq_none] using h.respond r
  | cleared _ hnew => exact absurd hnew hi
  | staged x k _ hadd hk => exact hadd ▸ (h.stage hk x).respond .ok
  | flushed x _ hadd h4 _ => exact hadd ▸ (h.flush_stage h4 x).respond .ok

/-- A run of commands but `NEW` that leaves no fault appends the values it adds, in order. -/
theorem Holds.run {vs : List Value} {is : List Instr} {s t : State} (h : Holds vs s) (hi : ∀ i ∈ is, i ≠ .new)
    (hr : runInstrs is s = .next t) (ht : t.fault = false) : Holds (vs ++ addedValues is) t := by
  induction is generalizing vs s with
  | nil =>
    cases hr
    simpa [addedValues] using h
  | cons i is ih =>
    obtain ⟨u, hu, hr⟩ := runInstrs_cons_iff.mp hr
    have huf : u.fault = false := by
      by_contra hc
      simpa [ht] using fault_of_run hr (by simpa using hc)
    rw [addedValues_cons, ← List.append_assoc]
    exact ih (h.effect (hi i List.mem_cons_self) (exec_effect hu) huf) (fun j hj => hi j (List.mem_cons_of_mem _ hj)) hr

/-! ### The values by their number -/

theorem length_flatMap_toList (gs : List Staging) : (gs.flatMap Staging.toList).length = 4 * gs.length := by
  simp [List.length_flatMap, Nat.mul_comm]

/-- The packed bytes of the groups are those of their values. -/
theorem flatMap_groupBytes (gs : List Staging) :
    gs.flatMap groupBytes = (gs.flatMap Staging.toList).flatMap packedValue := by
  rw [List.flatMap_assoc, funext groupBytes_eq]

/-- Value `4 * k + j` is value `j` of group `k`. -/
theorem getD_flatMap_toList {gs : List Staging} {k j : Nat} (rest : List Value) (hk : k < gs.length) (hj : j < 4) :
    (gs.flatMap Staging.toList ++ rest).getD (4 * k + j) 0 = gs[k].reg j := by
  induction gs generalizing k with
  | nil => simp at hk
  | cons g gs ih =>
    rw [List.flatMap_cons, List.append_assoc]
    cases k with
    | zero => simpa [Staging.reg] using List.getD_append g.toList _ 0 j hj
    | succ k =>
      have hskip : 4 * (k + 1) + j = g.toList.length + (4 * k + j) := by
        rw [Staging.length_toList]
        omega
      rw [hskip, List.getD_append_right _ _ _ _ (Nat.le_add_right _ _), Nat.add_sub_cancel_left, List.getElem_cons_succ]
      exact ih (Nat.lt_of_succ_lt_succ hk)

/-- The headers of the groups, each from the four values of its number (41_encoder.md R83). -/
theorem map_groupHeader_eq {gs : List Staging} {vs rest : List Value} (h : vs = gs.flatMap Staging.toList ++ rest) :
    gs.map groupHeader = (List.range gs.length).map fun k =>
      hdrByte (width (vs.getD (4 * k) 0)) (width (vs.getD (4 * k + 1) 0)) (width (vs.getD (4 * k + 2) 0))
        (width (vs.getD (4 * k + 3) 0)) := by
  refine List.ext_getElem (by simp) fun k hk _ => ?_
  rw [List.length_map] at hk
  have hreg (j : Nat) (hj : j < 4) : vs.getD (4 * k + j) 0 = gs[k].reg j := h ▸ getD_flatMap_toList rest hk hj
  rw [List.getElem_map, List.getElem_map, List.getElem_range, hreg 1 (by decide), hreg 2 (by decide),
    hreg 3 (by decide), show vs.getD (4 * k) 0 = gs[k].reg 0 from hreg 0 (by decide)]
  rfl

/-- All values but the last one to four are committed (41_encoder.md R83). -/
theorem HoldsGroups.length_groups {gs : List Staging} {vs : List Value} {s : State} (h : HoldsGroups gs vs s) :
    gs.length = (vs.length - 1) / 4 := by
  have hlen : vs.length = 4 * gs.length + s.slen.val := by
    rw [h.values, List.length_append, length_flatMap_toList, State.length_staging]
  have htail : s.slen.val = 0 → gs.length = 0 := fun h0 => List.length_eq_zero_iff.mpr (h.tail h0)
  omega

/-- Settles O28: the run holds exactly the values it adds, committed in groups of four up to the staged ones; the
statement says the same by the numbers of the values. -/
theorem stateAfterAdds : Obligations.StateAfterAdds := by
  intro s t is hm _ hc hh hp hs hi hr ht vs n g v
  obtain ⟨-, gs, hgroups⟩ : Holds vs t := (holds_nil hm hc hh hp hs).run hi hr ht
  have hg : gs.length = g := hgroups.length_groups
  have hlength : (gs.flatMap Staging.toList).length = 4 * g := by rw [length_flatMap_toList, hg]
  have htake : vs.take (4 * g) = gs.flatMap Staging.toList := by rw [hgroups.values, List.take_left' hlength]
  have hdrop : vs.drop (4 * g) = t.staging := by rw [hgroups.values, List.drop_left' hlength]
  refine ⟨hgroups.count, ?_, ?_, ?_, (State.length_packed t).symm, ?_, hdrop.symm⟩
  · rw [← State.length_headers, hgroups.headers, List.length_map, hg]
  · rw [hgroups.headers, map_groupHeader_eq hgroups.values, hg]
  · rw [hgroups.packed, flatMap_groupBytes, htake]
    rfl
  · rw [← State.length_staging, ← hdrop, List.length_drop]

end Sys2Proof.Machine
end

section
/-! PROOFS. The family 42_decoder.md: the decode function, `DECODE`, and the round trip. -/

namespace Sys2Proof.Machine

/-! ### The decode function -/

/-- The decode function returns what the unpacker gives, then the staged values (42_decoder.md R91, R92). -/
theorem dec_eq_some_iff {headers packed : List Byte} {staging q : List Value} :
    dec headers packed staging = some q ↔ ∃ out, unpack packed (widthsOf headers) 0 = some out ∧ out ++ staging = q :=
  Option.map_eq_some_iff

/-- The decode function fails exactly when the widths pass the end of the packed bytes (42_decoder.md R93). -/
theorem dec_eq_none_iff {headers packed : List Byte} {staging : List Value} :
    dec headers packed staging = none ↔ packed.length < (widthsOf headers).sum := by
  have hsome := unpack_isSome packed (widthsOf headers) 0 fun w hw => (mem_widthsOf hw).1
  rw [dec, Option.map_eq_none_iff, ← Option.not_isSome_iff_eq_none, hsome, decide_eq_true_iff, Nat.zero_add, not_or,
    Nat.not_le]
  refine and_iff_right_of_imp fun hlt hnil => ?_
  simp [hnil] at hlt

/-- Value `k` is read from the bytes after those of the first `k` values (42_decoder.md R91). -/
theorem getElem?_unpack {packed : List Byte} {ws : List Nat} {cur k w : Nat} {vs : List Value}
    (h : unpack packed ws cur = some vs) (hk : ws[k]? = some w) :
    vs[k]? = some (unbe ((packed.drop (cur + (ws.take k).sum)).take w)) := by
  induction ws generalizing cur vs k with
  | nil => simp at hk
  | cons w' ws ih =>
    simp only [unpack] at h
    split at h
    · cases h
    · obtain ⟨us, hus, rfl⟩ := Option.map_eq_some_iff.mp h
      cases k with
      | zero =>
        obtain rfl : w' = w := by simpa using hk
        simp
      | succ k => simpa [Nat.add_assoc] using ih hus hk

/-- The decode function gives four values for each header byte and every staged value (42_decoder.md R96). -/
theorem length_dec {headers packed : List Byte} {staging q : List Value} (h : dec headers packed staging = some q) :
    q.length = 4 * headers.length + staging.length := by
  obtain ⟨out, hout, rfl⟩ := dec_eq_some_iff.mp h
  rw [List.length_append, length_unpack hout, length_widthsOf]

/-- The staged values stand after the four for each header byte (42_decoder.md R91). -/
theorem drop_dec {headers packed : List Byte} {staging q : List Value} (h : dec headers packed staging = some q) :
    q.drop (4 * headers.length) = staging := by
  obtain ⟨out, hout, rfl⟩ := dec_eq_some_iff.mp h
  exact List.drop_left' (by rw [length_unpack hout, length_widthsOf])

/-- Value `k` of the result, where the headers hold a width for it, is read at its cursor (42_decoder.md R91). -/
theorem getElem?_dec {headers packed : List Byte} {staging q : List Value} {k w : Nat}
    (h : dec headers packed staging = some q) (hk : (widthsOf headers)[k]? = some w) :
    q[k]? = some (unbe ((packed.drop ((widthsOf headers).take k).sum).take w)) := by
  obtain ⟨out, hout, rfl⟩ := dec_eq_some_iff.mp h
  have hlt : k < out.length := length_unpack hout ▸ (List.getElem?_eq_some_iff.mp hk).1
  rw [List.getElem?_append_left hlt, getElem?_unpack hout hk, Nat.zero_add]

/-- Settles O30: the decode function fails as the unpacker does; its result has the length, the values by number and the
tail that the unpacked and the staged values give. -/
theorem decodeFunctionIsTheWalk : Obligations.DecodeFunctionIsTheWalk := by
  intro headers packed staging ws
  exact ⟨dec_eq_none_iff, fun q hq => ⟨length_dec hq, drop_dec hq, fun _ _ => getElem?_dec hq⟩⟩

/-! ### The decode function when values are added -/

/-- One more staged value is one more value at the end. -/
theorem dec_stage {headers packed : List Byte} {staging q : List Value} (h : dec headers packed staging = some q)
    (x : Value) : dec headers packed (staging ++ [x]) = some (q ++ [x]) := by
  obtain ⟨out, hout, rfl⟩ := dec_eq_some_iff.mp h
  exact dec_eq_some_iff.mpr ⟨out, hout, (List.append_assoc ..).symm⟩

/-- Committing the four staged values as a group changes nothing of the result. -/
theorem dec_flush {headers packed : List Byte} {g : Staging} {q : List Value}
    (hp : packed.length = (widthsOf headers).sum) (h : dec headers packed g.toList = some q) :
    dec (headers ++ [groupHeader g]) (packed ++ groupBytes g) [] = some q := by
  obtain ⟨out, hout, rfl⟩ := dec_eq_some_iff.mp h
  refine dec_eq_some_iff.mpr ⟨out ++ g.toList, ?_, List.append_nil _⟩
  rw [widthsOf_append, widthsOf_singleton]
  exact unpack_group g hout hp

/-- The widths the headers of groups hold are those of the groups' values. -/
theorem widthsOf_map_groupHeader (gs : List Staging) :
    widthsOf (gs.map groupHeader) = (gs.flatMap Staging.toList).map width := by
  rw [widthsOf, List.flatMap_map, List.map_flatMap, funext headerWidths_groupHeader]

/-- The decode function gives back the values a block holds (42_decoder.md R97). -/
theorem HoldsGroups.dec_eq {gs : List Staging} {vs : List Value} {s : State} (h : HoldsGroups gs vs s) :
    dec s.headers s.packed s.staging = some vs := by
  refine dec_eq_some_iff.mpr ⟨gs.flatMap Staging.toList, ?_, h.values.symm⟩
  rw [h.headers, h.packed, widthsOf_map_groupHeader, flatMap_groupBytes]
  exact unpack_packedValues [] _

/-! ### `DECODE` -/

/-- `DECODE` raises `DecodeOutOfRange` where the decode function fails (42_decoder.md R90). -/
theorem exec_decode_of_dec_none {s : State} (hf : s.fault = false) (h : dec s.headers s.packed s.staging = none) :
    exec .decode s = .next ((s.latch .decodeOutOfRange).respond (.fault .decodeOutOfRange)) := by
  simp [exec, execDecode, unlessFaulted_of_run hf, h, raise]

/-- A `DECODE` that answers values answers those of the decode function and changes nothing else. -/
theorem exec_decode_values {s t : State} {q : List Value} (h : exec .decode s = .next t)
    (hq : t.responses = s.responses ++ [.values q]) :
    dec s.headers s.packed s.staging = some q ∧ t = s.respond (.values q) := by
  cases exec_effect h with
  | sticky _ => simp at hq
  | raised c _ _ => simp at hq
  | read r _ hr =>
    cases hr with
    | decode hdec =>
      obtain rfl : _ = q := by simpa using hq
      exact ⟨hdec, rfl⟩
  | cleared _ hi => cases hi
  | staged x k _ hi _ => cases hi
  | flushed x _ hi _ _ => cases hi

/-- Settles O31: `DECODE` under the guard of a faulted block, by whether the decode function fails; in a sound state the
widths add up to `PLEN`. -/
theorem decodeAnswersEverything : Obligations.DecodeAnswersEverything := by
  refine ⟨decode_cmdWord .decode, fun s hf => unlessFaulted_of_fault hf _, fun s hf hle => ?_, fun s hf hlt => ?_,
    fun s hs => hs.packed.ge⟩
  · obtain ⟨q, hq⟩ : ∃ q, dec s.headers s.packed s.staging = some q := by
      rw [← Option.ne_none_iff_exists', Ne, dec_eq_none_iff, State.length_packed]
      exact Nat.not_lt.mpr hle
    exact ⟨q, hq, exec_decode_of_dec hf hq⟩
  · exact exec_decode_of_dec_none hf (dec_eq_none_iff.mpr (by rwa [State.length_packed]))

/-- Settles O32: the answer is the result of the decode function, of the length the live lengths give. -/
theorem decodeAnswersCountValues : Obligations.DecodeAnswersCountValues := by
  intro s q _ h
  have hlen := length_dec (exec_decode_values h rfl).1
  rw [State.length_headers, State.length_staging] at hlen
  exact ⟨hlen, fun hcount => hlen.trans hcount.symm⟩

/-- An `ADD` that leaves no fault appends its value to what the decode function returns, whether it flushes or not. -/
theorem dec_of_exec_add {s t : State} {x : Value} {q : List Value} (h : exec (.add x) s = .next t) (ht : t.fault = false)
    (hm : MemInv s) (hp : PackedInv s) (hq : dec s.headers s.packed s.staging = some q) :
    dec t.headers t.packed t.staging = some (q ++ [x]) := by
  obtain ⟨hhdr, hpkd⟩ := hm
  cases exec_effect h with
  | sticky hf => simp [hf] at ht
  | raised c _ _ => simp at ht
  | read r _ hr => cases hr
  | cleared _ hi => cases hi
  | staged y k _ hi hk =>
    cases hi
    simpa [staging_stage hk] using dec_stage hq x
  | flushed y _ hi h4 _ =>
    cases hi
    rw [staging_full h4] at hq
    have hlen : s.packed.length = (widthsOf s.headers).sum := by rwa [State.length_packed]
    simpa [headers_flush hhdr, packed_flush hpkd, staging_flush_stage] using dec_stage (dec_flush hlen hq) x

/-- Settles O33: the commands between change the responses alone, so the decode function is asked the same again; an `ADD`
then appends its value. -/
theorem decodeDoesNotConsume : Obligations.DecodeDoesNotConsume := by
  intro s t u q is _ h hresp his hrun hu
  obtain ⟨hq, rfl⟩ := exec_decode_values h hresp
  have hsame := run_readOnly his hrun hu
  generalize u.responses = rs at hsame
  subst hsame
  exact ⟨rfl, exec_decode_of_dec hu hq, fun x v hs hadd hv =>
    exec_decode_of_dec hv (dec_of_exec_add hadd hv hs.mem hs.packed hq)⟩

/-! ### The round trip -/

@[simp] theorem addedValues_map_add (vs : List Value) : addedValues (vs.map .add) = vs := by
  induction vs with
  | nil => rfl
  | cons v vs ih => simp [ih, added]

/-- After `ADD`s from a block that holds no value, `DECODE` answers the values added (42_decoder.md R97). -/
theorem Holds.exec_decode_of_adds {s t : State} {vs : List Value} (h : Holds [] s)
    (hr : runInstrs (vs.map .add) s = .next t) (ht : t.fault = false) :
    exec .decode t = .next (t.respond (.values vs)) := by
  obtain ⟨-, gs, hgroups⟩ := h.run (by simp) hr ht
  rw [addedValues_map_add, List.nil_append] at hgroups
  exact exec_decode_of_dec ht hgroups.dec_eq

/-- `NEW` clears the codec registers of a block that has not faulted (41_encoder.md R75). -/
theorem exec_new_of_unfaulted {s : State} (hf : s.fault = false) : exec .new s = .next (s.clear.respond .ok) :=
  unlessFaulted_of_run hf _

/-- No command writes the parameters. -/
theorem cfg_of_exec {i : Instr} {s t : State} (h : exec i s = .next t) : t.cfg = s.cfg := by
  cases exec_effect h <;> rfl

/-- With both capacities `INF`, no run of `ADD`s faults (41_encoder.md R79). -/
theorem run_adds_unbounded (vs : List Value) {s : State} (hf : s.fault = false) (hhdr : s.cfg.hdrCap = .inf)
    (hpkd : s.cfg.pkdCap = .inf) : ∃ t, runInstrs (vs.map .add) s = .next t ∧ t.fault = false := by
  induction vs generalizing s with
  | nil => exact ⟨s, rfl, hf⟩
  | cons v vs ih =>
    obtain ⟨u, hu, huf, -⟩ := unboundedAddNeverFaults s v hf hhdr hpkd
    have hcfg := cfg_of_exec hu
    obtain ⟨t, ht, htf⟩ := ih huf (by rw [hcfg, hhdr]) (by rw [hcfg, hpkd])
    exact ⟨t, runInstrs_cons_iff.mpr ⟨u, hu, ht⟩, htf⟩

/-- Settles O34: each start is a block that holds no value, and the values a block holds after `ADD`s are those added. -/
theorem roundTrip : Obligations.RoundTrip := by
  refine ⟨?afterNew, ?emptyState, ?afterReset, ?resetState, ?unbounded⟩
  case afterNew =>
    intro s t vs hm hf hr ht
    obtain ⟨u, hu, hr⟩ := runInstrs_cons_iff.mp hr
    obtain rfl : s.clear.respond .ok = u := by simpa [exec_new_of_unfaulted hf] using hu
    have hempty : Holds [] (s.clear.respond .ok) := holds_nil hm rfl rfl rfl rfl
    exact hempty.exec_decode_of_adds hr ht
  case emptyState =>
    intro s t vs hm hc hh hp hs hr ht
    exact (holds_nil hm hc hh hp hs).exec_decode_of_adds hr ht
  case afterReset =>
    intro r s t es vs hm hinbox hstep hr ht
    obtain rfl : s = (r.withInbox es).resetBlock := by simpa [hinbox] using (step_cases hstep).2
    have hempty : Holds [] (r.withInbox es).resetBlock := holds_nil hm rfl rfl rfl rfl
    exact hempty.exec_decode_of_adds hr ht
  case resetState =>
    intro c t vs hr ht
    exact (holds_nil (Memory.wf_reset c) rfl rfl rfl rfl).exec_decode_of_adds hr ht
  case unbounded =>
    intro s vs hf hhdr hpkd
    refine ⟨?_, run_adds_unbounded vs hf hhdr hpkd⟩
    obtain ⟨t, ht, htf⟩ := run_adds_unbounded (s := s.clear.respond .ok) vs hf hhdr hpkd
    exact ⟨t, runInstrs_cons_iff.mpr ⟨_, exec_new_of_unfaulted hf, ht⟩, htf⟩

end Sys2Proof.Machine
end

section
/-! PROOFS. The family 43_queries.md: the content read-outs of the memories. -/

namespace Sys2Proof.Machine

/-! ### Live bytes by index -/

/-- A byte below `HLEN` is an element of the live headers. -/
theorem State.getElem?_headers {s : State} {a : Nat} (h : a < s.hlen) : s.headers[a]? = some (s.readByte .hdr a) := by
  have hl : a < s.headers.length := by rwa [State.length_headers]
  rw [List.getElem?_eq_getElem hl, State.getElem_headers]

/-- A byte below `PLEN` is an element of the live packed bytes. -/
theorem State.getElem?_packed {s : State} {a : Nat} (h : a < s.plen) : s.packed[a]? = some (s.readByte .pkd a) := by
  have hl : a < s.packed.length := by rwa [State.length_packed]
  rw [List.getElem?_eq_getElem hl, State.getElem_packed]

/-! ### The read-out of either memory, in a block that has not faulted -/

/-- At or past the length the read-out raises `IndexOutOfRange` (60_exceptions.md R123). -/
theorem unlessFaulted_readOut_of_le {sp : Space} {a : Nat} {s : State} (hf : s.fault = false) (h : s.len sp ≤ a) :
    unlessFaulted s (readOut sp a s) = .next ((s.latch .indexOutOfRange).respond (.fault .indexOutOfRange)) := by
  rw [unlessFaulted_of_run hf, readOut, if_pos h, raise]

/-- Below the length the read-out answers the byte and writes no state. -/
theorem unlessFaulted_readOut_of_lt {sp : Space} {a : Nat} {s : State} (hf : s.fault = false) (h : a < s.len sp) :
    unlessFaulted s (readOut sp a s) = .next (s.respond (.word (s.readByte sp a).toNat)) := by
  rw [unlessFaulted_of_run hf, readOut, if_neg (Nat.not_le.mpr h), answer]

/-! ### `RDHDR` and `RDPKD` -/

/-- Settles O47: `RDHDR` is the read-out of `HDR` under the guard of a faulted block, by whether the index is below
`HLEN`. -/
theorem rdhdrReadsOneLiveByte : Obligations.RdhdrReadsOneLiveByte :=
  ⟨decode_cmdWord .rdhdr,
    fun _ _ hf => unlessFaulted_of_fault hf _,
    fun _ _ hf hle => unlessFaulted_readOut_of_le (sp := .hdr) hf hle,
    fun _ _ hf hlt => ⟨_, State.getElem?_headers hlt, rfl, unlessFaulted_readOut_of_lt (sp := .hdr) hf hlt⟩⟩

/-- Settles O48: `RDPKD` is the read-out of `PKD` under the guard of a faulted block, by whether the index is below
`PLEN`. -/
theorem rdpkdReadsOneLiveByte : Obligations.RdpkdReadsOneLiveByte :=
  ⟨decode_cmdWord .rdpkd,
    fun _ _ hf => unlessFaulted_of_fault hf _,
    fun _ _ hf hle => unlessFaulted_readOut_of_le (sp := .pkd) hf hle,
    fun _ _ hf hlt => ⟨_, State.getElem?_packed hlt, rfl, unlessFaulted_readOut_of_lt (sp := .pkd) hf hlt⟩⟩

end Sys2Proof.Machine
end

section
/-! PROOFS. The family 60_exceptions.md: the sticky fault, taking a fault, and which word raises which cause. -/

namespace Sys2Proof.Machine

/-! ### A command word accepted -/

/-- A step of a legal configuration performs the command word the host offers. -/
theorem step_of_command {s : State} {w : CmdWord} {es : List HostEvent} (hl : s.cfg.legal = true)
    (hi : s.inbox = .command w :: es) : step s = runWord w (s.withInbox es) := by
  simp [step, stepBlock, hl, hi, hostAct]

/-- A word that spells a command performs it (30_encoding.md R53). -/
theorem runWord_of_decode {w : CmdWord} {i : Instr} (h : decode w = .ok i) (s : State) : runWord w s = exec i s := by
  simp [runWord, h]

/-- A word that spells no command is answered as an illegal one (R122). -/
theorem runWord_of_reserved {w : CmdWord} (h : ∀ i, decode w ≠ .ok i) (s : State) : runWord w s = illegalWord s := by
  unfold runWord
  split
  · exact absurd ‹_› (h _)
  · rfl

/-- The opcodes of no row of the opcode map (30_encoding.md R53). -/
theorem mnemonicOf_eq_none {op : Opcode} : mnemonicOf op = none ↔ op ∈ [0x0, 0xD, 0xE, 0xF] := by
  decide +revert

/-- A word spells no command exactly when its opcode is reserved. -/
theorem decode_ne_ok_iff {w : CmdWord} : (∀ i, decode w ≠ .ok i) ↔ opOf w ∈ [0x0, 0xD, 0xE, 0xF] := by
  rw [← mnemonicOf_eq_none, decode]
  cases mnemonicOf (opOf w) <;> simp

/-! ### The sticky fault -/

/-- Every command of a faulted block is stopped by its guard (R126). -/
theorem exec_of_fault {s : State} (hf : s.fault = true) (i : Instr) : exec i s = .next (s.respond (.fault s.cause)) := by
  cases i <;> exact unlessFaulted_of_fault hf _

/-- Every word, legal or reserved, is stopped in a faulted block (R126). -/
theorem runWord_of_fault {s : State} (hf : s.fault = true) (w : CmdWord) :
    runWord w s = .next (s.respond (.fault s.cause)) := by
  unfold runWord
  split
  · exact exec_of_fault hf _
  · exact unlessFaulted_of_fault hf _

/-- Settles O17: the guard stops every command and every word. -/
theorem faultedBlockAnswersItsCause : Obligations.FaultedBlockAnswersItsCause := by
  refine ⟨fun s i hf => exec_of_fault hf i, fun s w es hl hf hi => ?_⟩
  rw [step_of_command hl hi]
  exact runWord_of_fault (s := s.withInbox es) hf w

/-- Settles O18: an idle step and a word keep the fault and the codec state; the one other act of the host is a reset. -/
theorem onlyResetLeavesAFault : Obligations.OnlyResetLeavesAFault := by
  intro s t hf h
  rcases (step_cases h).2 with ⟨hi, rfl⟩ | ⟨w, es, hi, hw⟩ | ⟨es, hi, rfl⟩
  · exact .inl ⟨hf, rfl, rfl, by simp [hi]⟩
  · rw [runWord_of_fault (s := s.withInbox es) hf w] at hw
    cases hw
    exact .inl ⟨hf, rfl, rfl, by simp [hi]⟩
  · exact .inr ⟨⟨es, hi⟩, rfl, rfl, rfl⟩

/-! ### What a word does in a block that has not faulted -/

/-- When a word raises a fault in a block that has not faulted: its command does, or it spells none (R121 to R123, R128). -/
def WordRaises (w : CmdWord) (s : State) (c : Cause) : Prop :=
  (∃ i, decode w = .ok i ∧ Raises i s c) ∨ ((∀ i, decode w ≠ .ok i) ∧ c = .illegalCommand)

/-- A command that raises a fault raises one of the four causes, not code 0 (R120). -/
theorem Raises.ne_none {i : Instr} {s : State} {c : Cause} (h : Raises i s c) : c ≠ .none := by
  cases h <;> simp

theorem WordRaises.ne_none {w : CmdWord} {s : State} {c : Cause} (h : WordRaises w s c) : c ≠ .none := by
  rcases h with ⟨i, -, hr⟩ | ⟨-, rfl⟩
  · exact hr.ne_none
  · simp

/-- A command that raises a cause takes that fault and does nothing else (R124). -/
theorem Raises.exec_eq {i : Instr} {s : State} {c : Cause} (hf : s.fault = false) (h : Raises i s c) :
    exec i s = .next ((s.latch c).respond (.fault c)) := by
  cases h with
  | decode h => exact exec_decode_of_dec_none hf h
  | add x h4 h => exact exec_add_of_not_fits x hf h4 h
  | rdhdr a h => exact unlessFaulted_readOut_of_le (sp := .hdr) hf h
  | rdpkd a h => exact unlessFaulted_readOut_of_le (sp := .pkd) hf h
  | rdstg a h => exact (unlessFaulted_of_run hf _).trans (if_pos h)

/-- A word that raises a cause takes that fault and does nothing else (R124). -/
theorem WordRaises.runWord_eq {w : CmdWord} {s : State} {c : Cause} (hf : s.fault = false) (h : WordRaises w s c) :
    runWord w s = .next ((s.latch c).respond (.fault c)) := by
  rcases h with ⟨i, hi, hr⟩ | ⟨hno, rfl⟩
  · rw [runWord_of_decode hi, hr.exec_eq hf]
  · rw [runWord_of_reserved hno]
    exact unlessFaulted_of_run hf _

/-- A command that reads does not answer a fault. -/
theorem IsReading.ne_fault {i : Instr} {s : State} {r : Response} (h : IsReading i s r) (c : Cause) : r ≠ .fault c := by
  cases h <;> simp

/-- A run from `s` takes no fault: `FAULT` stays 0, `CAUSE` stays, and the one response is no fault. -/
def TakesNoFault (s : State) (run : Out) : Prop :=
  ∃ t r, run = .next t ∧ t.fault = false ∧ t.cause = s.cause ∧ t.responses = s.responses ++ [r] ∧ ∀ c, r ≠ .fault c

/-- A command of an unfaulted block raises a fault or takes none. -/
theorem exec_of_unfaulted {s : State} (hf : s.fault = false) (i : Instr) :
    (∃ c, Raises i s c) ∨ TakesNoFault s (exec i s) := by
  obtain ⟨t, ht⟩ := exec_completes i s
  cases exec_effect ht with
  | sticky h => simp [hf] at h
  | raised c _ hr => exact .inl ⟨c, hr⟩
  | read r _ hr => exact .inr ⟨_, r, ht, hf, rfl, rfl, hr.ne_fault⟩
  | cleared _ _ => exact .inr ⟨_, .ok, ht, hf, rfl, rfl, by simp⟩
  | staged x k _ _ _ => exact .inr ⟨_, .ok, ht, hf, rfl, rfl, by simp⟩
  | flushed x _ _ _ _ => exact .inr ⟨_, .ok, ht, hf, rfl, rfl, by simp⟩

/-- A word accepted by an unfaulted block raises a fault or takes none. -/
theorem runWord_of_unfaulted {s : State} (hf : s.fault = false) (w : CmdWord) :
    (∃ c, WordRaises w s c) ∨ TakesNoFault s (runWord w s) := by
  by_cases hno : ∀ i, decode w ≠ .ok i
  · exact .inl ⟨_, .inr ⟨hno, rfl⟩⟩
  · obtain ⟨i, hi⟩ := by simpa using hno
    rw [runWord_of_decode hi]
    exact (exec_of_unfaulted hf i).imp_left fun ⟨c, hr⟩ => ⟨c, .inl ⟨i, hi, hr⟩⟩

/-- Settles O4: a reserved word takes the fault `IllegalCommand`, and no command raises that cause. -/
theorem reservedWordsRaiseIllegalCommand : Obligations.ReservedWordsRaiseIllegalCommand := by
  intro w
  refine ⟨decode_ne_ok_iff, fun s es hl hf hi => ⟨fun hres => ?reserved, fun hres => ?legal⟩⟩
  case reserved =>
    have hraise : WordRaises w (s.withInbox es) .illegalCommand := .inr ⟨decode_ne_ok_iff.mpr hres, rfl⟩
    rw [step_of_command hl hi]
    exact hraise.runWord_eq hf
  case legal =>
    rw [step_of_command hl hi]
    rcases runWord_of_unfaulted (s := s.withInbox es) hf w with ⟨c, hc⟩ | ⟨t, r, ht, htf, -, hr, hnf⟩
    · have hne : c ≠ .illegalCommand := by
        rcases hc with ⟨i, -, hr⟩ | ⟨hno, -⟩
        · exact raises_ne_illegalCommand hr
        · exact absurd (decode_ne_ok_iff.mp hno) hres
      exact ⟨_, .fault c, hc.runWord_eq hf, rfl, by simpa using hne, fun _ => hne⟩
    · exact ⟨t, r, ht, hr, hnf _, by simp [htf]⟩

/-- Settles O19: the word raises a cause, and the faulted block it leaves is stopped by O17. -/
theorem faultEntryChangesOnlyTheStatus : Obligations.FaultEntryChangesOnlyTheStatus := by
  intro s t w es hi hf h ht
  have hl := (step_cases h).1
  rw [step_of_command hl hi] at h
  rcases runWord_of_unfaulted (s := s.withInbox es) hf w with ⟨c, hc⟩ | ⟨u, r, hu, huf, -⟩
  · have hrun := hc.runWord_eq (s := s.withInbox es) hf
    obtain rfl := Host.Outcome.next.inj (hrun.symm.trans h)
    exact ⟨c, hc.ne_none, rfl, rfl, fun w' fs => faultedBlockAnswersItsCause.2 _ w' fs hl rfl rfl⟩
  · obtain rfl := Host.Outcome.next.inj (hu.symm.trans h)
    simp [huf] at ht

/-! ### Which word raises which cause -/

/-- A cause other than `IllegalCommand` is raised by the command a word spells. -/
theorem wordRaises_iff_of_ne {w : CmdWord} {s : State} {c : Cause} (hc : c ≠ .illegalCommand) :
    WordRaises w s c ↔ ∃ i, decode w = .ok i ∧ Raises i s c := by
  simp [WordRaises, hc]

/-- `DecodeOutOfRange` is raised by `DECODE` when the widths pass `PLEN` (R128). -/
theorem wordRaises_decodeOutOfRange_iff {w : CmdWord} {s : State} :
    WordRaises w s .decodeOutOfRange ↔ decode w = .ok .decode ∧ s.plen < (widthsOf s.headers).sum := by
  rw [wordRaises_iff_of_ne (by simp), ← State.length_packed s, ← dec_eq_none_iff (staging := s.staging)]
  constructor
  · rintro ⟨_, hw, hr⟩
    cases hr with
    | decode h => exact ⟨hw, h⟩
  · rintro ⟨hw, h⟩
    exact ⟨_, hw, .decode h⟩

/-- `CapacityOverflow` is raised by `ADD` when four values are staged and their group does not fit (R121). -/
theorem wordRaises_capacityOverflow_iff {w : CmdWord} {s : State} :
    WordRaises w s .capacityOverflow ↔ s.slen.val = 4 ∧ (∃ x, decode w = .ok (.add x)) ∧ s.fits = false := by
  rw [wordRaises_iff_of_ne (by simp)]
  constructor
  · rintro ⟨_, hw, hr⟩
    cases hr with
    | add x h4 h => exact ⟨h4, ⟨x, hw⟩, h⟩
  · rintro ⟨h4, ⟨x, hw⟩, h⟩
    exact ⟨_, hw, .add x h4 h⟩

/-- `IllegalCommand` is raised by the reserved opcodes (R122). -/
theorem wordRaises_illegalCommand_iff {w : CmdWord} {s : State} :
    WordRaises w s .illegalCommand ↔ opOf w ∈ [0x0, 0xD, 0xE, 0xF] := by
  have hno (i : Instr) : ¬ Raises i s .illegalCommand := fun hr => raises_ne_illegalCommand hr rfl
  simp only [WordRaises, hno, and_false, exists_false, false_or, and_true, decode_ne_ok_iff]

/-- `IndexOutOfRange` is raised by a read-out whose index is at or past the length (R123). -/
theorem wordRaises_indexOutOfRange_iff {w : CmdWord} {s : State} :
    WordRaises w s .indexOutOfRange ↔ (∃ a, decode w = .ok (.rdhdr a) ∧ s.hlen ≤ a.toNat) ∨
      (∃ a, decode w = .ok (.rdpkd a) ∧ s.plen ≤ a.toNat) ∨
      (∃ a, decode w = .ok (.rdstg a) ∧ s.slen.val ≤ a.toNat) := by
  rw [wordRaises_iff_of_ne (by simp)]
  constructor
  · rintro ⟨_, hw, hr⟩
    cases hr with
    | rdhdr a h => exact .inl ⟨a, hw, h⟩
    | rdpkd a h => exact .inr (.inl ⟨a, hw, h⟩)
    | rdstg a h => exact .inr (.inr ⟨a, hw, h⟩)
  · rintro (⟨a, hw, h⟩ | ⟨a, hw, h⟩ | ⟨a, hw, h⟩)
    · exact ⟨_, hw, .rdhdr a h⟩
    · exact ⟨_, hw, .rdpkd a h⟩
    · exact ⟨_, hw, .rdstg a h⟩

/-- The causes have different codes (R120). -/
theorem Cause.code_injective : Function.Injective Cause.code := by
  intro c d
  cases c <;> cases d <;> decide

theorem Cause.code_le_four (c : Cause) : c.code.toNat ≤ 4 := by
  cases c <;> decide

/-- A word leaves an unfaulted block with no cause, or with the one cause it raises. -/
theorem runWord_cause {s : State} (hf : s.fault = false) (hn : s.cause = .none) (w : CmdWord) :
    ∃ t, runWord w s = .next t ∧ (t.fault = false ↔ t.cause = .none) ∧
      ∀ c, c ≠ .none → (t.cause = c ↔ WordRaises w s c) := by
  rcases runWord_of_unfaulted hf w with ⟨d, hd⟩ | ⟨t, r, ht, htf, htc, -⟩
  · refine ⟨_, hd.runWord_eq hf, by simpa using hd.ne_none, fun c _ => ⟨fun h => h ▸ hd, fun hc => ?_⟩⟩
    have hsame := (hd.runWord_eq hf).symm.trans (hc.runWord_eq hf)
    simpa using congrArg State.cause (Host.Outcome.next.inj hsame)
  · rw [hn] at htc
    refine ⟨t, ht, by simp [htf, htc], fun c hc => ⟨fun h => absurd (htc ▸ h).symm hc, fun h => ?_⟩⟩
    obtain rfl := Host.Outcome.next.inj (ht.symm.trans (h.runWord_eq hf))
    simp at htf

/-- Settles O20: the code is that of the one cause the word raises, and each cause has its commands and its condition. -/
theorem eachCauseHasItsCode : Obligations.EachCauseHasItsCode := by
  intro s w es hl hf hn hi
  obtain ⟨t, ht, hnone, hcause⟩ := runWord_cause (s := s.withInbox es) hf hn w
  have hcode (c : Cause) : t.cause.code = c.code ↔ t.cause = c := Cause.code_injective.eq_iff
  have hraised {c : Cause} (hc : c ≠ .none) : t.cause.code = c.code ↔ WordRaises w (s.withInbox es) c :=
    (hcode c).trans (hcause c hc)
  refine ⟨t, by rw [step_of_command hl hi, ht], hnone.trans (hcode .none).symm, t.cause.code_le_four,
    (hraised (by simp)).trans wordRaises_decodeOutOfRange_iff, ?overflow,
    (hraised (by simp)).trans wordRaises_illegalCommand_iff, (hraised (by simp)).trans wordRaises_indexOutOfRange_iff⟩
  case overflow =>
    have hover := (hraised (by simp)).trans wordRaises_capacityOverflow_iff
    rwa [State.fits_eq_false_iff] at hover

end Sys2Proof.Machine
end

section
/-! PROOFS. The family 70_reset_and_hazards.md: the reset event, and how it differs from `NEW`. -/

namespace Sys2Proof.Machine

/-! ### The reset event -/

/-- A step of a legal configuration performs the reset the host sends, whatever the state (70_reset_and_hazards.md R140). -/
theorem step_of_reset {s : State} {es : List HostEvent} (hl : s.cfg.legal = true) (hi : s.inbox = .reset :: es) :
    step s = .next (s.withInbox es).resetBlock := by
  simp [step, stepBlock, hl, hi, hostAct]

/-- Clearing the lengths empties the abstract codec state, though it writes no storage (10_state.md R18). -/
@[simp] theorem State.codec_clear (s : State) : s.clear.codec = Codec.empty := rfl

/-- Clearing the fault pair leaves the abstract codec state. -/
@[simp] theorem State.codec_unlatch (s : State) : s.unlatch.codec = s.codec := rfl

/-- The reset event leaves the empty abstract codec state (70_reset_and_hazards.md R140). -/
theorem State.codec_resetBlock (s : State) : s.resetBlock.codec = Codec.empty := by
  rw [State.resetBlock_eq, State.codec_unlatch, State.codec_clear]

/-- Settles O10: the reset event by its equation; the word after it is performed by a block with `FAULT = 0`, where a
reserved one raises `IllegalCommand`; and by O18 no other step leaves a fault. -/
theorem resetEventEmptiesTheBlock : Obligations.ResetEventEmptiesTheBlock := by
  refine ⟨fun s es hl hi => ?reset, fun s t hno h hf => ?other⟩
  case reset =>
    refine ⟨_, step_of_reset hl hi, rfl, rfl, rfl, rfl, rfl, rfl, State.codec_resetBlock _, rfl, rfl, rfl, ?_⟩
    rintro w fs rfl
    have hnext := step_of_command (s := (s.withInbox (.command w :: fs)).resetBlock) hl rfl
    refine ⟨fun i hw => hnext.trans (runWord_of_decode hw _), fun hw => hnext.trans ?_⟩
    have hraise : WordRaises w ((s.withInbox (.command w :: fs)).resetBlock.withInbox fs) .illegalCommand :=
      .inr ⟨hw, rfl⟩
    exact hraise.runWord_eq rfl
  case other =>
    rcases onlyResetLeavesAFault s t hf h with ⟨hft, -⟩ | ⟨⟨es, hi⟩, -⟩
    · exact hft
    · exact absurd hi (hno es)

/-! ### Reset and `NEW` -/

/-- A block to which the host sends the word of `NEW` performs `NEW`, whatever its operand (41_encoder.md R75). -/
theorem step_of_new {s : State} (arg : Arg) (es : List HostEvent) (hl : s.cfg.legal = true) :
    step (s.withInbox (.command (0x1#4 ++ arg) :: es)) = exec .new (s.withInbox es) := by
  have haccept := step_of_command (s := s.withInbox (.command (0x1#4 ++ arg) :: es)) hl rfl
  exact haccept.trans (runWord_of_decode (newEmptiesTheCodec.1 arg) _)

/-- Settles O11: reset has no guard, `NEW` has the guard of a faulted block, and both clear the lengths. -/
theorem resetAndNewCompared : Obligations.ResetAndNewCompared := by
  intro s arg es hl
  refine ⟨?reset, fun hf => ?refused, fun hf => ?performed⟩
  case reset => exact ⟨_, step_of_reset (s := s.withInbox (.reset :: es)) hl rfl, rfl, rfl, State.codec_resetBlock _⟩
  case refused => exact (step_of_new arg es hl).trans (exec_of_fault (s := s.withInbox es) hf .new)
  case performed =>
    have hnew := exec_new_of_unfaulted (s := s.withInbox es) hf
    exact ⟨_, (step_of_new arg es hl).trans hnew, rfl, rfl, rfl, State.codec_clear _⟩

end Sys2Proof.Machine
end

section
/-! PROOFS. The family other: the statements about the whole model. -/

namespace Sys2Proof

/-! ### Decode and encode -/

/-- A command is the one its mnemonic and its operand make. -/
theorem Instr.withArg_arg (i : Instr) : i.mnemonic.withArg i.arg = i := by
  cases i <;> rfl

/-- The operand is kept by a mnemonic that takes one, and ignored by the others (30_encoding.md R51). -/
theorem Mnemonic.arg_withArg (m : Mnemonic) (a : Arg) : (m.withArg a).arg = if m.takesOperand then a else 0 := by
  cases m <;> rfl

/-- The decoder reads a command from its own word. -/
theorem decode_encode (i : Instr) : decode (encode i) = .ok i :=
  (decode_cmdWord _ _).trans (congrArg Except.ok i.withArg_arg)

/-- A word that spells a command is that command's word, up to an ignored `arg`. -/
theorem encode_of_decode {w : CmdWord} {i : Instr} (h : decode w = .ok i) :
    encode i = if i.mnemonic.takesOperand then w else w &&& opcodeMask := by
  obtain ⟨hop, harg⟩ := decode_eq_ok.mp h
  have hi : i.arg = if i.mnemonic.takesOperand then argOf w else 0 := by
    rw [← i.mnemonic.arg_withArg, harg]
  rw [encode, hi, ← hop]
  split
  · exact cmdWord_opOf_argOf w
  · exact (and_opcodeMask w).symm

/-- Settles O2: a word is its opcode and its `arg`, and each command has one opcode. -/
theorem decodeAndEncodeAgree : Obligations.DecodeAndEncodeAgree :=
  ⟨decode_encode, fun _ _ => encode_of_decode⟩

/-- Settles O3: the thirteen words, decoded. -/
theorem sampleWordsDecode : Obligations.SampleWordsDecode := by
  unfold Obligations.SampleWordsDecode
  decide

end Sys2Proof

namespace Sys2Proof.Machine

/-! ### Every step keeps a sound state sound -/

/-- Every capacity admits an empty memory. -/
@[simp] theorem capAdmits_zero (c : Capacity) : capAdmits c 0 = true := by
  cases c <;> simp

/-- An empty block is sound, whatever its dead storage holds. -/
theorem sound_of_empty {s : State} (hc : s.count = 0) (hh : s.hlen = 0) (hp : s.plen = 0) (hs : s.slen.val = 0)
    (hf : FaultInv s) (hm : MemInv s) : Sound s := by
  have hheaders : s.headers = [] := List.length_eq_zero_iff.mp (by simpa using hh)
  exact ⟨by simp [CountInv, hc, hh, hs], by simp [PackedInv, hp, hheaders], fun _ => hh, by simp [MinimalInv, hheaders],
    hf, by simp [CapInv, hh, hp], hm⟩

/-- Settles O12: the state after reset is empty, has no cause, and its memories list nothing. -/
theorem resetStateIsSound : Obligations.ResetStateIsSound := fun c =>
  sound_of_empty rfl rfl rfl rfl (by simp [FaultInv, State.resetWith]) (Memory.wf_reset c)

theorem Sound.withInbox {s : State} (h : Sound s) (es : List HostEvent) : Sound (s.withInbox es) :=
  ⟨h.count, h.packed, h.tail, h.minimal, h.fault, h.cap, h.mem⟩

theorem Sound.respond {s : State} (h : Sound s) (r : Response) : Sound (s.respond r) :=
  ⟨h.count, h.packed, h.tail, h.minimal, h.fault, h.cap, h.mem⟩

/-- Taking a fault keeps a state sound when its cause has a code. -/
theorem Sound.latch {s : State} {c : Cause} (h : Sound s) (hc : c ≠ .none) : Sound (s.latch c) :=
  ⟨h.count, h.packed, h.tail, h.minimal, iff_of_true rfl hc, h.cap, h.mem⟩

theorem Sound.clear {s : State} (h : Sound s) : Sound s.clear :=
  sound_of_empty rfl rfl rfl rfl h.fault h.mem

theorem Sound.resetBlock {s : State} (h : Sound s) : Sound s.resetBlock :=
  sound_of_empty rfl rfl rfl rfl (by simp [FaultInv]) h.mem

/-- Staging a value changes no length of a memory, and the staging is not empty after it. -/
theorem Sound.stage {s : State} {k : Fin 4} (h : Sound s) (hk : s.slen.val = k.val) (x : Value) :
    Sound (s.stage k x) where
  count := by
    have hcount : s.count = 4 * s.hlen + s.slen.val := h.count
    simp only [CountInv, State.stage_count, State.stage_hlen, State.stage_slen, Fin.val_succ]
    omega
  packed := h.packed
  tail := by simp [TailInv]
  minimal := h.minimal
  fault := h.fault
  cap := h.cap
  mem := h.mem

/-- The flush appends one header byte with the widths of the four values and the values in those widths. -/
theorem minimalInv_flush {s : State} (hm : MemInv s) (hp : PackedInv s) (h : MinimalInv s) : MinimalInv s.flush := by
  obtain ⟨vs, hvs, hwidths⟩ := Option.map_eq_some_iff.mp h
  have hgroup := unpack_group s.stg hvs ((State.length_packed s).trans hp)
  rw [MinimalInv, headers_flush hm.1, packed_flush hm.2, widthsOf_append, widthsOf_singleton, hgroup, Option.map_some,
    List.map_append, hwidths, headerWidths_groupHeader]

/-- With four values staged and room for their group, the flush and the value staged after it keep a state sound. -/
theorem Sound.flush_stage {s : State} (h : Sound s) (h4 : s.slen.val = 4) (hfit : s.fits = true) (x : Value) :
    Sound (s.flush.stage 0 x) where
  count := by
    have hcount : s.count = 4 * s.hlen + s.slen.val := h.count
    simp [CountInv]
    omega
  packed := by
    have hplen : s.plen = (widthsOf s.headers).sum := h.packed
    simp [PackedInv, headers_flush h.mem.1, widthsOf_append, headerWidths_groupHeader, groupNeed_eq, ← hplen]
  tail := by simp [TailInv]
  minimal := minimalInv_flush h.mem h.packed h.minimal
  fault := h.fault
  cap := by simpa [CapInv, State.fits] using hfit
  mem := wf_flush h.mem.1 h.mem.2

/-- Every command keeps a sound state sound. -/
theorem Effect.sound {i : Instr} {s t : State} (hs : Sound s) (he : Effect i s t) : Sound t := by
  cases he with
  | sticky _ => exact hs.respond _
  | raised c _ hr => exact (hs.latch hr.ne_none).respond _
  | read r _ _ => exact hs.respond r
  | cleared _ _ => exact hs.clear.respond .ok
  | staged x k _ _ hk => exact (hs.stage hk x).respond .ok
  | flushed x _ _ h4 hfit => exact (hs.flush_stage h4 hfit x).respond .ok

/-- Settles O13: the effect of every command, `IllegalCommand` and the reset event keep a state sound. -/
theorem everyStepKeepsSoundness : Obligations.EveryStepKeepsSoundness := fun _ _ =>
  step_keeps (fun es _ h => h.withInbox es) (fun _ _ _ => Effect.sound)
    (fun _ h _ => (h.latch (by simp)).respond _) (fun _ => Sound.resetBlock)

/-! ### Every command and every word gets one response -/

/-- A command adds one response and writes neither the parameters nor the host's list. -/
theorem Effect.frame {i : Instr} {s t : State} (he : Effect i s t) :
    ∃ r, t.cfg = s.cfg ∧ t.inbox = s.inbox ∧ t.responses = s.responses ++ [r] := by
  cases he <;> exact ⟨_, rfl, rfl, rfl⟩

/-- Settles O8: every command answers, in one of the ways it can end. -/
theorem everyCommandCompletes : Obligations.EveryCommandCompletes := by
  intro i s
  obtain ⟨t, ht⟩ := exec_completes i s
  obtain ⟨r, hframe⟩ := (exec_effect ht).frame
  exact ⟨t, r, ht, hframe⟩

/-! ### The abstract codec -/

/-- A word that spells no command does on the abstract view what it does on the registers. -/
theorem illegalWord_refines {w : CmdWord} (hw : ∀ i, decode w ≠ .ok i) (s : State) :
    ∃ t r, illegalWord s = .next t ∧ t.inbox = s.inbox ∧ t.responses = s.responses ++ [r] ∧
      s.view.performWord s.cfg w = (t.view, r) := by
  obtain ⟨e, he⟩ : ∃ e, decode w = .error e := by
    cases hd : decode w with
    | ok i => exact absurd hd (hw i)
    | error e => exact ⟨e, rfl⟩
  cases hf : s.fault with
  | true =>
    exact ⟨_, _, unlessFaulted_of_fault hf _, rfl, rfl, by simp [View.performWord, he, hf]⟩
  | false =>
    exact ⟨_, _, unlessFaulted_of_run hf _, rfl, rfl, by simp [View.performWord, he, hf, View.raise]⟩

/-- The registers refine the abstract codec, word by word. -/
theorem runWord_refines {s : State} (hm : MemInv s) (w : CmdWord) :
    ∃ t r, runWord w s = .next t ∧ t.inbox = s.inbox ∧ t.responses = s.responses ++ [r] ∧
      s.view.performWord s.cfg w = (t.view, r) := by
  by_cases hw : ∀ i, decode w ≠ .ok i
  · rw [runWord_of_reserved hw]
    exact illegalWord_refines hw s
  · obtain ⟨i, hi⟩ := by simpa using hw
    obtain ⟨t, r, ht, hr, hview⟩ := exec_refines_perform hm i
    obtain ⟨-, -, hinbox, -⟩ := (exec_effect ht).frame
    exact ⟨t, r, by rw [runWord_of_decode hi, ht], hinbox, hr, by simp [View.performWord, hi, hview]⟩

/-- Settles O35: a step performs the word the host offers, which the abstract codec does alike. -/
theorem registersRefineTheAbstractCodec : Obligations.RegistersRefineTheAbstractCodec := by
  intro s w es hl hm hi
  rw [step_of_command hl hi]
  exact runWord_refines (s := s.withInbox es) hm w

/-! ### Legal configurations -/

/-- The parameters of a legal configuration, with the bounds of a finite one (00_scope.md R5, R6). -/
theorem legal_iff {c : Config} : c.legal = true ↔
    1 ≤ c.wordBytes ∧ ∀ h p, c.hdrCap = .bytes h → c.pkdCap = .bytes p →
      4 * h + 4 ≤ 2 ^ (8 * c.wordBytes) - 1 ∧ c.wordBytes + p + h + 16 ≤ 2 ^ (8 * c.wordBytes) - 1 := by
  rw [Config.legal, Bool.and_eq_true, decide_eq_true_iff]
  refine and_congr_right fun _ => ?_
  obtain ⟨wb, hc, pc⟩ := c
  cases hc with
  | inf => cases pc <;> simp [Config.sizesFit]
  | bytes h =>
    cases pc with
    | inf => simp [Config.sizesFit]
    | bytes p =>
      rw [sizesFit_bytes]
      simp

/-- Settles O7: legality is the positive word and the bounds, and a step asks for it first. -/
theorem illegalConfigurationGetsNoMeaning : Obligations.IllegalConfigurationGetsNoMeaning :=
  ⟨fun _ => legal_iff, fun s hl => by simp [step, stepBlock, hl]⟩

/-- Settles O16: the lengths of a sound state are within the capacities, at most four values are staged, and the bounds of
a legal configuration leave room for just that. -/
theorem sizesFitTheWord : Obligations.SizesFitTheWord := by
  intro s h p hs hl hh hp
  obtain ⟨-, hbounds⟩ := legal_iff.mp hl
  obtain ⟨hcount_bound, hfoot_bound⟩ := hbounds h p hh hp
  have hhlen : s.hlen ≤ h := by simpa [hh] using hs.cap.1
  have hplen : s.plen ≤ p := by simpa [hp] using hs.cap.2
  have hcount : s.count = 4 * s.hlen + s.slen.val := hs.count
  omega

/-! ### Steps -/

/-- Settles O5: the step accepts the word, and the word spells the command. -/
theorem stepRunsTheDecodedCommand : Obligations.StepRunsTheDecodedCommand := by
  intro s w es i hl hi hw
  rw [step_of_command hl hi]
  exact runWord_of_decode hw _

/-- Settles O6: with an empty inbox a step has nothing to perform. -/
theorem idleBlockDoesNotChange : Obligations.IdleBlockDoesNotChange := by
  intro s hl hi
  simp [step, stepBlock, hl, hi]

/-! ### Status -/

/-- The two fields of a bit joined to three. -/
theorem fields_ofBool_append (f : Bool) (c : BitVec 3) :
    (BitVec.ofBool f ++ c).getLsbD 3 = f ∧ (BitVec.ofBool f ++ c).extractLsb' 0 3 = c := by
  decide +revert

/-- Settles O22: `STATUS` joins the bit of `FAULT` and the three of `CAUSE`, and the pins show its two fields. -/
theorem statusBitsAreFaultAndCause : Obligations.StatusBitsAreFaultAndCause := by
  intro s
  obtain ⟨hfault, hcause⟩ : s.status.getLsbD 3 = s.fault ∧ s.status.extractLsb' 0 3 = s.cause.code :=
    fields_ofBool_append s.fault s.cause.code
  exact ⟨hfault, hcause, by rw [hfault, hcause]; rfl⟩

/-! ### Correct use -/

/-- In a sound state of a block with both capacities `INF`, a command whose index is below the length raises no fault. -/
theorem not_raises_of_correct_use {i : Instr} {s : State} {c : Cause} (hs : Sound s) (hhdr : s.cfg.hdrCap = .inf)
    (hpkd : s.cfg.pkdCap = .inf) (hh : ∀ a, i = .rdhdr a → a.toNat < s.hlen) (hp : ∀ a, i = .rdpkd a → a.toNat < s.plen)
    (hg : ∀ a, i = .rdstg a → a.toNat < s.slen.val) : ¬ Raises i s c := by
  intro hr
  cases hr with
  | decode h =>
    obtain ⟨q, hq⟩ := hs.exists_dec
    simp [hq] at h
  | add x _ h => simp [State.fits_eq_false_iff, hhdr, hpkd] at h
  | rdhdr a h => exact absurd (hh a rfl) (Nat.not_lt.mpr h)
  | rdpkd a h => exact absurd (hp a rfl) (Nat.not_lt.mpr h)
  | rdstg a h => exact absurd (hg a rfl) (Nat.not_lt.mpr h)

/-- Settles O21: a command of an unfaulted block raises a fault or takes none, and here it raises none. -/
theorem correctUseNeverFaults : Obligations.CorrectUseNeverFaults := by
  intro s i hs hf hhdr hpkd hh hp hg
  rcases exec_of_unfaulted hf i with ⟨c, hr⟩ | ⟨t, -, ht, htf, htc, -⟩
  · exact absurd hr (not_raises_of_correct_use hs hhdr hpkd hh hp hg)
  · have hcause : s.cause = .none := by simpa [FaultInv, hf] using hs.fault
    exact ⟨t, ht, htf, htc.trans hcause⟩

/-! ### `ADD` -/

/-- A staging register other than the one written stays. -/
theorem Staging.reg_set_of_ne (g : Staging) {k : Fin 4} {j : Nat} (hj : j < 4) (hne : j ≠ k.val) (x : Value) :
    (g.set k x).reg j = g.reg j := by
  have h := g.reg_set k ⟨j, hj⟩ x
  rwa [if_neg (by simpa [Fin.ext_iff] using hne)] at h

theorem Staging.reg_set_self (g : Staging) (k : Fin 4) (x : Value) : (g.set k x).reg k.val = x := by
  simp [Staging.reg_set]

/-- Settles O24: the value is staged in the first free register. -/
theorem addStagesItsValue : Obligations.AddStagesItsValue := by
  intro s x hf hlt
  let k : Fin 4 := ⟨s.slen.val, hlt⟩
  have hstaging : (s.stage k x).staging = s.staging ++ [x] := staging_stage rfl x
  exact ⟨_, exec_add_of_free (k := k) x hf rfl, rfl, rfl, s.stg.reg_set_self k x,
    fun j hj hne => s.stg.reg_set_of_ne (k := k) hj hne x, hstaging, rfl, rfl, by simp, rfl, rfl, rfl, rfl, rfl⟩

/-- Settles O25: the flush appends the group to the live bytes and writes no other, then the value is staged in `S[0]`. -/
theorem addFlushesTheGroupFirst : Obligations.AddFlushesTheGroupFirst := by
  intro s x ⟨hhdr, hpkd⟩ hf h4 hfith hfitp
  have hfit : s.fits = true := Bool.and_eq_true_iff.mpr ⟨hfith, hfitp⟩
  refine ⟨_, exec_add_of_fits x hf h4 hfit, rfl, rfl, rfl, staging_flush_stage s x, rfl, rfl, ?headers, ?packed, ?hdr, ?pkd,
    ?frame⟩
  case headers => simp [headers_flush hhdr, groupHeader]
  case packed => simp [packed_flush hpkd, groupBytes, packedValue]
  case hdr =>
    intro a ha
    rw [State.readByte_respond, State.readByte_stage, readByte_flush_hdr hhdr ha]
  case pkd =>
    intro a ha
    rw [State.readByte_respond, State.readByte_stage, readByte_flush_pkd hpkd ha]
  case frame => simp

/-! ### What a command leaves unchanged -/

/-- The bytes the flush changes were dead and are live after it. -/
theorem live_of_readByte_flush_ne {s : State} (hm : MemInv s) {sp : Space} {a : Nat}
    (h : s.flush.readByte sp a ≠ s.readByte sp a) : s.len sp ≤ a ∧ a < s.flush.len sp := by
  obtain ⟨hhdr, hpkd⟩ := hm
  cases sp with
  | hdr =>
    have ha : a = s.hlen := by
      by_contra hne
      exact h (readByte_flush_hdr hhdr hne)
    simp [ha]
  | pkd =>
    by_contra ha
    rw [State.len_pkd, State.len_pkd, State.flush_plen] at ha
    exact h (readByte_flush_pkd hpkd (by omega))

/-- The bytes a command changes were dead and are live after it (20_memory.md R31). -/
theorem Effect.live_of_readByte_ne {i : Instr} {s t : State} (hm : MemInv s) (he : Effect i s t) {sp : Space} {a : Nat}
    (h : t.readByte sp a ≠ s.readByte sp a) : s.len sp ≤ a ∧ a < t.len sp := by
  cases he with
  | sticky _ => simp at h
  | raised c _ _ => simp at h
  | read r _ _ => simp at h
  | cleared _ _ => simp at h
  | staged x k _ _ _ => simp at h
  | flushed x _ _ _ _ =>
    rw [State.readByte_respond, State.readByte_stage] at h
    cases sp <;> exact live_of_readByte_flush_ne hm h

/-- With any command but `NEW` no length falls. -/
theorem Effect.len_le {i : Instr} {s t : State} (he : Effect i s t) (hi : i ≠ .new) : s.hlen ≤ t.hlen ∧ s.plen ≤ t.plen := by
  cases he with
  | sticky _ => exact ⟨le_rfl, le_rfl⟩
  | raised c _ _ => exact ⟨le_rfl, le_rfl⟩
  | read r _ _ => exact ⟨le_rfl, le_rfl⟩
  | cleared _ hnew => exact absurd hnew hi
  | staged x k _ _ _ => exact ⟨le_rfl, le_rfl⟩
  | flushed x _ _ _ _ => exact ⟨Nat.le_add_right _ _, Nat.le_add_right _ _⟩

/-- A live byte is not changed by a command. -/
theorem Effect.readByte_of_live {i : Instr} {s t : State} (hm : MemInv s) (he : Effect i s t) {sp : Space} {a : Nat}
    (h : a < s.len sp) : t.readByte sp a = s.readByte sp a := by
  by_contra hne
  exact absurd (he.live_of_readByte_ne hm hne).1 (Nat.not_le.mpr h)

/-- Settles O29: only the flush writes a memory, at its length and up to the raised length. -/
theorem liveBytesNeverChange : Obligations.LiveBytesNeverChange := by
  intro s t i hm h
  have he := exec_effect h
  refine ⟨fun a => he.live_of_readByte_ne hm (sp := .hdr), fun a => he.live_of_readByte_ne hm (sp := .pkd), fun hi => ?_⟩
  obtain ⟨hh, hp⟩ := he.len_le hi
  refine ⟨hh, hp, fun a ha => ?_, fun a ha => ?_⟩
  · rw [State.getElem?_headers ha, State.getElem?_headers (ha.trans_le hh), he.readByte_of_live hm (sp := .hdr) ha]
  · rw [State.getElem?_packed ha, State.getElem?_packed (ha.trans_le hp), he.readByte_of_live hm (sp := .pkd) ha]

/-- Settles O37: such a command is stopped, raises a fault or reads. -/
theorem onlyNewAndAddChangeTheCodec : Obligations.OnlyNewAndAddChangeTheCodec := by
  intro s t i hnew hadd h
  cases exec_effect h with
  | sticky hf => simp [hf]
  | raised c hf hr => simp [hf, hr.ne_none]
  | read r hf _ => simp [hf]
  | cleared _ hi => exact absurd hi hnew
  | staged x k _ hi _ => exact absurd hi (hadd x)
  | flushed x _ hi _ _ => exact absurd hi (hadd x)

/-! ### The queries -/

/-- Settles O42: `COUNT` is an answer under the guard of a faulted block. -/
theorem countCommandAnswersTheCount : Obligations.CountCommandAnswersTheCount :=
  ⟨decode_cmdWord .count, fun _ hf => unlessFaulted_of_fault hf _, fun _ hf => unlessFaulted_of_run hf _⟩

/-- Settles O43: `FOOTPRINT` is an answer under the guard of a faulted block. -/
theorem footprintCommandAnswersTheFootprint : Obligations.FootprintCommandAnswersTheFootprint :=
  ⟨decode_cmdWord .footprint, fun _ hf => unlessFaulted_of_fault hf _, fun _ hf => unlessFaulted_of_run hf _⟩

/-- Settles O44: `HLEN` is an answer under the guard of a faulted block. -/
theorem hlenCommandAnswersTheLength : Obligations.HlenCommandAnswersTheLength :=
  ⟨decode_cmdWord .hlen, fun _ hf => unlessFaulted_of_fault hf _, fun _ hf => unlessFaulted_of_run hf _⟩

/-- Settles O45: `PLEN` is an answer under the guard of a faulted block. -/
theorem plenCommandAnswersTheLength : Obligations.PlenCommandAnswersTheLength :=
  ⟨decode_cmdWord .plen, fun _ hf => unlessFaulted_of_fault hf _, fun _ hf => unlessFaulted_of_run hf _⟩

/-- Settles O46: `SLEN` is an answer under the guard of a faulted block, and the register holds no number past 4. -/
theorem slenCommandAnswersTheLength : Obligations.SlenCommandAnswersTheLength :=
  ⟨decode_cmdWord .slen, fun _ hf => unlessFaulted_of_fault hf _,
    fun s hf => ⟨unlessFaulted_of_run hf _, Nat.le_of_lt_succ s.slen.isLt⟩⟩

/-- A register below `SLEN` is an element of the staged values. -/
theorem State.getElem?_staging {s : State} {i : Nat} (h : i < s.slen.val) : s.staging[i]? = some (s.stg.reg i) := by
  have hl : i < s.staging.length := by rwa [State.length_staging]
  rw [List.getElem?_eq_getElem hl, State.getElem_staging]

/-- Settles O49: `RDSTG` under the guard of a faulted block, by whether the index is below `SLEN`. -/
theorem rdstgReadsOneStagedValue : Obligations.RdstgReadsOneStagedValue :=
  ⟨decode_cmdWord .rdstg,
    fun _ _ hf => unlessFaulted_of_fault hf _,
    fun _ i hf hle => (Raises.rdstg i hle).exec_eq hf,
    fun _ _ hf hlt => ⟨_, State.getElem?_staging hlt, rfl,
      (unlessFaulted_of_run hf _).trans (if_neg (Nat.not_le.mpr hlt))⟩⟩

/-! ### Responses -/

/-- Every word, legal or reserved, gets a next state. -/
theorem runWord_completes (w : CmdWord) (s : State) : ∃ t, runWord w s = .next t := by
  unfold runWord
  split
  · exact exec_completes _ s
  · exact unlessFaulted_completes ⟨_, rfl⟩


/-- What the response `r` to the word `w` says, and what it says of the block `t` it leaves (30_encoding.md R62). -/
def Answers (w : CmdWord) (t : State) : Response → Prop
  | .ok => t.fault = false ∧ (decode w = .ok .new ∨ ∃ x, decode w = .ok (.add x))
  | .word n => t.fault = false ∧
      (decode w = .ok .count ∨ decode w = .ok .footprint ∨ decode w = .ok .hlen ∨ decode w = .ok .plen ∨
        decode w = .ok .slen ∨ (∃ x, decode w = .ok (.width x) ∧ 1 ≤ n ∧ n ≤ 4) ∨
        (∃ a, decode w = .ok (.rdhdr a) ∧ n < 2 ^ 8) ∨ (∃ a, decode w = .ok (.rdpkd a) ∧ n < 2 ^ 8) ∨
        (∃ a, decode w = .ok (.rdstg a) ∧ n < 2 ^ 32))
  | .values _ => t.fault = false ∧ decode w = .ok .decode
  | .fault c => t.fault = true ∧ c = t.cause

/-- A reading command answers in its shape. -/
theorem IsReading.answers {w : CmdWord} {i : Instr} {s t : State} {r : Response} (hw : Sys2Proof.decode w = .ok i)
    (ht : t.fault = false) (hr : IsReading i s r) : Answers w t r := by
  cases hr with
  | decode _ => exact ⟨ht, hw⟩
  | count => simp [Answers, ht, hw]
  | footprint => simp [Answers, ht, hw]
  | width x => simp [Answers, ht, hw, width_pos, width_le_four]
  | rdhdr a _ => simpa [Answers, ht, hw] using (s.readByte .hdr a.toNat).isLt
  | rdpkd a _ => simpa [Answers, ht, hw] using (s.readByte .pkd a.toNat).isLt
  | rdstg a _ => simpa [Answers, ht, hw] using (s.stg.reg a.toNat).isLt
  | hlen => simp [Answers, ht, hw]
  | plen => simp [Answers, ht, hw]
  | slen => simp [Answers, ht, hw]

/-- A command answers in its shape. -/
theorem Effect.answers {w : CmdWord} {i : Instr} {s t : State} (hw : decode w = .ok i) (he : Effect i s t) :
    ∃ r, t.responses = s.responses ++ [r] ∧ Answers w t r := by
  cases he with
  | sticky hf => exact ⟨_, rfl, hf, rfl⟩
  | raised c _ _ => exact ⟨_, rfl, rfl, rfl⟩
  | read r hf hr => exact ⟨r, rfl, hr.answers hw hf⟩
  | cleared hf hi => exact ⟨.ok, rfl, hf, .inl (hi ▸ hw)⟩
  | staged x k hf hi _ => exact ⟨.ok, rfl, hf, .inr ⟨x, hi ▸ hw⟩⟩
  | flushed x hf hi _ _ => exact ⟨.ok, rfl, hf, .inr ⟨x, hi ▸ hw⟩⟩

/-- Every word gets one response, of its shape. -/
theorem runWord_answers (w : CmdWord) (s : State) :
    ∃ t r, runWord w s = .next t ∧ t.responses = s.responses ++ [r] ∧ Answers w t r := by
  obtain ⟨t, ht⟩ := runWord_completes w s
  rcases runWord_cases ht with ⟨i, hi, hexec⟩ | ⟨-, ⟨hf, rfl⟩ | ⟨-, rfl⟩⟩
  · obtain ⟨r, hr⟩ := (exec_effect hexec).answers hi
    exact ⟨t, r, ht, hr⟩
  · exact ⟨_, _, ht, rfl, hf, rfl⟩
  · exact ⟨_, _, ht, rfl, rfl, rfl⟩

/-- Settles O50: the clauses are what `Answers` says of each response. -/
theorem oneResponseOfItsShape : Obligations.OneResponseOfItsShape := by
  intro s w es hl hi
  obtain ⟨t, r, ht, hr, hshape⟩ := runWord_answers w (s.withInbox es)
  refine ⟨t, r, (step_of_command hl hi).trans ht, hr, ?_⟩
  cases r with
  | ok => obtain ⟨htf, hw⟩ := hshape; simp [htf, hw]
  | word n =>
    obtain ⟨htf, hw⟩ := hshape
    refine ⟨by simp, by simp [htf], by simp, by simp, ?_⟩
    rintro _ ⟨⟩
    exact hw
  | values q => obtain ⟨htf, hw⟩ := hshape; simp [htf, hw]
  | fault c => obtain ⟨htf, hc⟩ := hshape; simp [htf, hc]

/-! ### Beats and the two channels -/

/-- Every response is some `VALUE` beats and one last beat (30_encoding.md R63). -/
theorem Response.beats_eq (r : Response) : ∃ bs b, r.beats = bs ++ [b] ∧ b.last = true ∧ b.kind ≠ .value ∧
    ∀ x ∈ bs, x.last = false ∧ x.kind = .value := by
  cases r with
  | ok => exact ⟨[], _, rfl, rfl, by simp, by simp⟩
  | word n => exact ⟨[], _, rfl, rfl, by simp, by simp⟩
  | values q => exact ⟨_, _, rfl, rfl, by simp, by simp⟩
  | fault c => exact ⟨[], _, rfl, rfl, by simp, by simp⟩

/-- Settles O51: the beats by their definition, those of values by their number. -/
theorem everyResponseEndsWithItsLastBeat : Obligations.EveryResponseEndsWithItsLastBeat := by
  refine ⟨rfl, fun _ => rfl, fun _ => rfl, fun q => ⟨by simp [Response.beats], fun k v hv => ?_, by simp [Response.beats]⟩,
    Response.beats_eq⟩
  have hk := (List.getElem?_eq_some_iff.mp hv).1
  rw [Response.beats, List.getElem?_append_left (by simpa using hk), List.getElem?_map, hv]
  rfl

/-- The beats offered after a word are those of its response. -/
theorem lastBeats_of_responses {t : State} {rs : List Response} {r : Response} (h : t.responses = rs ++ [r]) :
    lastBeats t = r.beats := by
  simp [lastBeats, h]

/-- While a beat is offered, `cmd_ready` is low. -/
theorem Wires.cmdReady_eq_false {p : Wires} (h : p.offered ≠ []) : p.cmdReady = false := by
  simpa [Wires.cmdReady] using h

theorem Wires.cmdReady_eq_true {p : Wires} (h : p.offered = []) : p.cmdReady = true := by
  simp [Wires.cmdReady, h]

/-- With no beat left an accepted word is performed and its response offered. -/
theorem Wires.accept_eq {p : Wires} {w : CmdWord} {t : State} {r : Response} (h : p.offered = [])
    (ht : runWord w p.block = .next t) (hr : t.responses = p.block.responses ++ [r]) :
    p.accept w = some { block := t, offered := r.beats } := by
  simp [Wires.accept, Wires.cmdReady_eq_true h, ht, lastBeats_of_responses hr]

theorem Wires.assertReset_eq {p : Wires} (h : p.offered = []) :
    p.assertReset = some { block := p.block.resetBlock, offered := [] } := by
  simp [Wires.assertReset, Wires.cmdReady_eq_true h, h]

/-- Taking a beat gives the first one offered and leaves the others and the block. -/
theorem Wires.take_eq_some_iff {p p' : Wires} {b : Beat} :
    p.take = some (b, p') ↔ p.offered = b :: p'.offered ∧ p'.block = p.block := by
  obtain ⟨block, offered⟩ := p
  obtain ⟨block', offered'⟩ := p'
  cases offered with
  | nil => simp [Wires.take]
  | cons c cs =>
    simp only [Wires.take, Option.some.injEq, Prod.mk.injEq, Wires.mk.injEq, List.cons.injEq, eq_comm]
    tauto

/-- Settles O52: `cmd_ready` guards the word and the reset alike, and both leave what the block leaves. -/
theorem channelWaitsForTheLastBeat : Obligations.ChannelWaitsForTheLastBeat := by
  refine ⟨fun p w h => ?waiting, fun p w h => ?word, fun p h => ?reset, fun _ _ _ => Wires.take_eq_some_iff⟩
  case waiting => simp [Wires.accept, Wires.assertReset, Wires.cmdReady_eq_false h]
  case word =>
    obtain ⟨t, r, ht, hr, -⟩ := runWord_answers w p.block
    exact ⟨t, r, Wires.accept_eq h ht hr, hr, ht⟩
  case reset =>
    exact ⟨_, Wires.assertReset_eq h, rfl, rfl, rfl, rfl, rfl, rfl, State.codec_resetBlock _, rfl, rfl, rfl,
      fun hl => step_of_reset (s := p.block.withInbox (.reset :: p.block.inbox)) hl rfl⟩

/-! ### The characters of an operand -/

/-- The characters that end a piece of a line (30_encoding.md R65, R66). -/
def separators : List Char := [' ', ',', ';']

/-- No separator is a digit. -/
theorem digitOf_separator {c : Char} (h : c ∈ separators) : digitOf 16 c = none := by
  simp only [separators, List.mem_cons, List.not_mem_nil, or_false] at h
  rcases h with rfl | rfl | rfl <;> rfl

theorem SpellsIn.notMem_separators {base n : Nat} {cs : List Char} (hb : base ≤ 16) (h : SpellsIn base cs n) :
    ∀ c ∈ cs, c ∉ separators := by
  obtain ⟨ds, -, hds, hmap, -⟩ := h
  intro c hc hsep
  have hlower : c.toLower ∈ ds.map Nat.digitChar := hmap ▸ List.mem_map_of_mem hc
  obtain ⟨d, hd, hdc⟩ := List.mem_map.mp hlower
  have hdigit := digitOf_of_toLower le_rfl ((hds d hd).trans_le hb) hdc.symm
  simp [digitOf_separator hsep] at hdigit

/-- An operand holds no blank, no comma and no comment. -/
theorem SpellsOperand.notMem_separators {n : Nat} {cs : List Char} (h : SpellsOperand cs n) :
    ∀ c ∈ cs, c ∉ separators := by
  rcases h with h | ⟨xs, rfl, h⟩
  · exact h.notMem_separators (by decide)
  · simpa [separators] using h.notMem_separators le_rfl

theorem SpellsOperand.ne_nil {n : Nat} {cs : List Char} (h : SpellsOperand cs n) : cs ≠ [] := by
  rintro rfl
  rcases h with ⟨ds, hne, -, hmap, -⟩ | ⟨xs, hxs, -⟩
  · exact hne (List.map_eq_nil_iff.mp hmap.symm)
  · cases hxs

/-! ### Comments and blanks at the end of a line -/

/-- A text that holds no comment and ends in a character that is no blank. -/
def IsTrimmed (cs : List Char) : Prop := ';' ∉ cs ∧ ∃ c, cs.getLast? = some c ∧ c ≠ ' '

/-- Nothing is dropped from such a text. -/
theorem IsTrimmed.stripComment_eq {cs : List Char} (h : IsTrimmed cs) : stripComment cs = cs := by
  obtain ⟨hcomment, c, hlast, hc⟩ := h
  have htake : cs.takeWhile (fun c => c != ';') = cs := by
    rw [List.takeWhile_eq_self_iff]
    intro d hd
    simpa using ne_of_mem_of_not_mem hd hcomment
  obtain ⟨as, rfl⟩ := List.getLast?_eq_some_iff.mp hlast
  rw [stripComment, htake]
  simp [trimEnd, hc]

/-- What stands before it may be anything but a comment. -/
theorem IsTrimmed.append {as bs : List Char} (ha : ';' ∉ as) (hb : IsTrimmed bs) : IsTrimmed (as ++ bs) := by
  obtain ⟨hcomment, c, hlast, hc⟩ := hb
  exact ⟨by simp [ha, hcomment], c, by simp [hlast], hc⟩

theorem SpellsOperand.isTrimmed {n : Nat} {cs : List Char} (h : SpellsOperand cs n) : IsTrimmed cs := by
  have hsep := h.notMem_separators
  refine ⟨fun hc => hsep _ hc (by decide), _, List.getLast?_eq_some_getLast h.ne_nil, fun hlast => ?_⟩
  exact hsep _ (List.getLast_mem h.ne_nil) (hlast ▸ by decide)

/-- A comment is dropped (30_encoding.md R65). -/
theorem stripComment_comment (line comment : List Char) : stripComment (line ++ ';' :: comment) = stripComment line := by
  have htake : (line ++ ';' :: comment).takeWhile (fun c => c != ';') = line.takeWhile fun c => c != ';' := by
    rw [List.takeWhile_append]
    split
    · rename_i hlen
      rw [(List.takeWhile_prefix _).eq_of_length hlen]
      simp
    · rfl
  rw [stripComment, stripComment, htake]

/-! ### A line with an operand -/

/-- A line is its name and what stands after the first blank (30_encoding.md R65). -/
theorem parseLine_append {name rest : List Char} (hname : ∀ c ∈ name, c ≠ ' ' ∧ c ≠ ';') (hrest : IsTrimmed rest) :
    parseLine (name ++ ' ' :: rest) =
      if name = buildText then (buildNumbers (splitCommas rest)).map .build
      else (mnemonicNamed name).bind fun m => (operandNumber rest).map fun n => .command ⟨m, some n⟩ := by
  have hblank : ∀ c ∈ name, (c != ' ') = true := fun c hc => by simpa using (hname c hc).1
  have hcomment : ';' ∉ name ++ [' '] := by simpa using fun hc => (hname _ hc).2 rfl
  have hstrip : stripComment (name ++ ' ' :: rest) = name ++ ' ' :: rest := by
    simpa using (hrest.append hcomment).stripComment_eq
  simp only [parseLine, hstrip, List.takeWhile_append_of_pos hblank, List.dropWhile_append_of_pos hblank,
    bne_self_eq_false, Bool.false_eq_true, not_false_eq_true, List.dropWhile_cons_of_neg, List.takeWhile_cons_of_neg,
    List.append_nil]
  split
  · rfl
  · cases mnemonicNamed name <;> cases operandNumber rest <;> rfl

/-- The text of a mnemonic holds no blank and no comment. -/
theorem ne_of_mem_mnemonicText {m : Mnemonic} {c : Char} (h : c ∈ mnemonicText m) : c ≠ ' ' ∧ c ≠ ';' := by
  revert c
  cases m <;> simp [mnemonicText]

theorem mnemonicText_ne_buildText (m : Mnemonic) : mnemonicText m ≠ buildText := by
  cases m <;> simp [mnemonicText, buildText]

@[simp] theorem mnemonicNamed_mnemonicText (m : Mnemonic) : mnemonicNamed (mnemonicText m) = some m := by
  cases m <;> rfl

/-- A line of a mnemonic that takes an operand is its word, when the operand is in range (30_encoding.md R65). -/
theorem assembleLine_operand {m : Mnemonic} (hm : m.takesOperand = true) {cs : List Char} {n : Nat}
    (h : SpellsOperand cs n) : assembleLine (mnemonicText m ++ ' ' :: cs) =
      if n < 2 ^ 32 then some [cmdWord m.opcode (BitVec.ofNat 32 n)] else none := by
  have hparse : parseLine (mnemonicText m ++ ' ' :: cs) = some (.command ⟨m, some n⟩) := by
    simp [parseLine_append (fun _ => ne_of_mem_mnemonicText) h.isTrimmed, mnemonicText_ne_buildText,
      operandNumber_of_spells h]
  simp only [assembleLine, hparse, sourceInstrs, lineInstr, Line.wf, hm, Bool.true_and, decide_eq_true_iff]
  split
  · simp [encode, Mnemonic.arg_withArg, hm]
  · rfl

/-! ### `BUILD` -/

/-- The operands of `BUILD`, a comma and a blank between two (30_encoding.md R66). -/
def operandsText (ps : List (List Char × Nat)) : List Char := [',', ' '].intercalate (ps.map Prod.fst)

theorem operandsText_singleton (p : List Char × Nat) : operandsText [p] = p.1 := List.intercalate_singleton

theorem operandsText_cons (p : List Char × Nat) {ps : List (List Char × Nat)} (h : ps ≠ []) :
    operandsText (p :: ps) = p.1 ++ ',' :: ' ' :: operandsText ps := by
  simp [operandsText, List.intercalate_cons_of_ne_nil, h]

theorem isTrimmed_operandsText {ps : List (List Char × Nat)} (hne : ps ≠ []) (h : ∀ p ∈ ps, SpellsOperand p.1 p.2) :
    IsTrimmed (operandsText ps) := by
  induction ps with
  | nil => exact absurd rfl hne
  | cons p ps ih =>
    have hp := h p List.mem_cons_self
    by_cases hps : ps = []
    · subst hps
      rw [operandsText_singleton]
      exact hp.isTrimmed
    · have hbefore : ';' ∉ p.1 ++ [',', ' '] := by simpa using hp.isTrimmed.1
      rw [operandsText_cons p hps]
      simpa using (ih hps fun q hq => h q (List.mem_cons_of_mem _ hq)).append hbefore

/-- The reader of `BUILD` drops one blank before an operand. -/
theorem buildNumbers_cons {cs : List Char} {n : Nat} (h : SpellsOperand cs n) {b : List Char} (hb : b = [] ∨ b = [' '])
    (ps : List (List Char)) : buildNumbers ((b ++ cs) :: ps) = (buildNumbers ps).map (n :: ·) := by
  have hread := operandNumber_of_spells h
  have hfirst (ds : List Char) : cs ≠ ' ' :: ds := by
    rintro rfl
    exact h.notMem_separators ' ' List.mem_cons_self List.mem_cons_self
  rcases hb with rfl | rfl
  · simp only [buildNumbers, List.nil_append, hread]
    cases buildNumbers ps <;> rfl
  · simp only [buildNumbers, List.singleton_append, hread]
    cases buildNumbers ps <;> rfl

/-- The reader of `BUILD` reads every operand in order, with or without a blank before the first. -/
theorem buildNumbers_operandsText {ps : List (List Char × Nat)} (hne : ps ≠ []) (h : ∀ p ∈ ps, SpellsOperand p.1 p.2)
    {b : List Char} (hb : b = [] ∨ b = [' ']) :
    buildNumbers (splitCommas (b ++ operandsText ps)) = some (ps.map Prod.snd) := by
  induction ps generalizing b with
  | nil => exact absurd rfl hne
  | cons p ps ih =>
    have hp := h p List.mem_cons_self
    have hcomma : ',' ∉ b ++ p.1 := by
      have hpc : ',' ∉ p.1 := fun hc => hp.notMem_separators _ hc (by decide)
      rcases hb with rfl | rfl <;> simpa using hpc
    obtain ⟨hlast, hmore⟩ := splitCommas_of_notMem hcomma
    by_cases hps : ps = []
    · subst hps
      rw [operandsText_singleton, hlast, buildNumbers_cons hp hb]
      rfl
    · rw [operandsText_cons p hps, ← List.append_assoc, hmore, buildNumbers_cons hp hb]
      have hrest := ih hps (fun q hq => h q (List.mem_cons_of_mem _ hq)) (.inr rfl)
      rw [List.singleton_append] at hrest
      rw [hrest]
      rfl

/-- `BUILD` and its operands are the word of `NEW` and one of `ADD` for each (30_encoding.md R66). -/
theorem assembleLine_build {ps : List (List Char × Nat)} (hne : ps ≠ [])
    (h : ∀ p ∈ ps, SpellsOperand p.1 p.2 ∧ p.2 < 2 ^ 32) :
    assembleLine (buildText ++ ' ' :: operandsText ps) =
      some (encode .new :: ps.map fun p => encode (.add (BitVec.ofNat 32 p.2))) := by
  have hspells : ∀ p ∈ ps, SpellsOperand p.1 p.2 := fun p hp => (h p hp).1
  have hparse : parseLine (buildText ++ ' ' :: operandsText ps) = some (.build (ps.map Prod.snd)) := by
    rw [parseLine_append (by simp [buildText]) (isTrimmed_operandsText hne hspells), if_pos rfl]
    exact congrArg _ (buildNumbers_operandsText (b := []) hne hspells (.inl rfl))
  have hrange : (ps.map Prod.snd).all (fun n => decide (n < 2 ^ 32)) = true := by
    simpa using fun cs n hp => (h (cs, n) hp).2
  simp only [assembleLine, hparse, sourceInstrs, hrange, if_true, Option.map_some, build, List.map_cons, List.map_map]
  rfl

/-- Settles O53: a line is its name and the rest; digits are read as their number, and the rest of `BUILD` is read comma
by comma. -/
theorem listingLinesAssemble : Obligations.ListingLinesAssemble := by
  refine ⟨by decide, ?operand, by decide, ?build, ?comment⟩
  case operand =>
    intro name op hrow cs n h
    simp only [List.mem_cons, Prod.mk.injEq, List.not_mem_nil, or_false] at hrow
    rcases hrow with ⟨rfl, rfl⟩ | ⟨rfl, rfl⟩ | ⟨rfl, rfl⟩ | ⟨rfl, rfl⟩ | ⟨rfl, rfl⟩
    · exact assembleLine_operand (m := .add) rfl h
    · exact assembleLine_operand (m := .width) rfl h
    · exact assembleLine_operand (m := .rdhdr) rfl h
    · exact assembleLine_operand (m := .rdpkd) rfl h
    · exact assembleLine_operand (m := .rdstg) rfl h
  case build => exact fun ps hne h => assembleLine_build hne h
  case comment =>
    intro line comment
    simp only [assembleLine, parseLine, stripComment_comment]

end Sys2Proof.Machine
end
